-- ==== Sys2Proof/Word.lean ====
section
/-! DEFINITION. The data words of BWR-CORE (spec/00_scope.md R10, R11; spec/30_encoding.md R78): a byte of `BYTES`,
a bit of a row, a pixel. Everything is unsigned; nothing in this hardware is signed (R11). -/

namespace Sys2Proof

/-- A byte: 8 bits, bit 7 the most significant (R11). -/
abbrev Byte := BitVec 8

/-- A bit of a row or of the mask: `true` is the bit 1 (R11). -/
abbrev Bit := Bool

/-- A row of a bit-plane, position 0 first (R12 BooleanRow). -/
abbrev Row := List Bit

/-- One element of `PIX`: an RGB triple of `CHW` = 8-bit unsigned channels (R10, R41, R78). -/
structure Pixel where
  r : BitVec 8
  g : BitVec 8
  b : BitVec 8
deriving DecidableEq, Repr, Inhabited

end Sys2Proof
end

