-- ==== Sys2Proof/Config.lean ====
section
/-! DEFINITION. What the spec fixes once for the machine: the constants of spec/00_scope.md R9, the OPEN parameters of
R10 as one record of plain data (the state carries one such record and no step changes it), and the free values: what a
buffer element that nothing has written holds, and what a host reads where R155 and R156 call the value unspecified. -/

namespace Sys2Proof

/-- `LIT_BITS` and `WINDOW` (R9): row positions of one Literal, and the encoder's look-ahead. -/
def Config.window : Nat := 7

/-- `RUN_MAX` (R9): the longest run one Run block carries. -/
def Config.runMax : Nat := 64

/-- `PACK_BITS` (R9): mask bits per byte of the bit-packer. -/
def Config.packBits : Nat := 8

/-- The OPEN parameters of R10 (spec/92_eei_decisions.md D4, D5). A capacity `none` is unbounded. -/
structure Params where
  /-- `DIM_BITS`: width of `WIDTH`, `HEIGHT`, `ERRROW` -/
  dimBits  : Nat
  /-- `LEN_BITS`: width of `PIX_LEN`, `MASK_LEN`, `BYTES_LEN`, `CONSUMED` -/
  lenBits  : Nat
  /-- `PIX_CAP`: elements in `PIX` -/
  pixCap   : Option Nat
  /-- `MASK_CAP`: bits in `MASK` -/
  maskCap  : Option Nat
  /-- `BYTES_CAP`: bytes in `BYTES` -/
  bytesCap : Option Nat
deriving DecidableEq, Repr

/-- The values the spec suggests (spec/92_eei_decisions.md, "Open parameters in one place"). -/
def Params.suggested : Params :=
  { dimBits := 16, lenBits := 32, pixCap := none, maskCap := none, bytesCap := none }

/-- A length register of `lenBits` bits holds every length the capacity admits. An unbounded buffer holds at most
`W × H` elements, which `2 × DIM_BITS` bits hold (R152). -/
def Params.holdsCap (p : Params) : Option Nat → Bool
  | some c => decide (c < 2 ^ p.lenBits)
  | none   => decide (2 * p.dimBits ≤ p.lenBits)

/-- The constraints the spec puts on the parameters: `DIM_BITS ≥ 1`, `LEN_BITS` "large enough for every capacity". -/
def Params.wf (p : Params) : Bool :=
  decide (1 ≤ p.dimBits) && p.holdsCap p.pixCap && p.holdsCap p.maskCap && p.holdsCap p.bytesCap

/-- FREE VALUE. The pixel that element `i` of `PIX` holds when nothing has written it since the contents last became
unspecified (R37, spec/93_implementation_defined.md U5). The first argument numbers that event. -/
opaque Config.freePixel : Nat → Nat → Pixel

/-- FREE VALUE. The bit that element `i` of `MASK` holds when nothing has written it since the contents last became
unspecified (R37, R172, U4, U5); and a bit read from `MASK` while it is a running operation's output (R156, U7). -/
opaque Config.freeBit : Nat → Nat → Bit

/-- FREE VALUE. The byte that element `i` of `BYTES` holds when nothing has written it since the contents last became
unspecified (R37, U5); and a byte read from `BYTES` while it is a running operation's output (R156, U7). -/
opaque Config.freeByte : Nat → Nat → Byte

/-- FREE VALUE. What a result register reads as while an operation runs (R155, U7). The argument numbers the read. -/
opaque Config.freeReg : Nat → Nat

end Sys2Proof
end

