-- ==== Sys2Proof/Syntax.lean ====
section
/-! DEFINITION. The instructions of BWR-CORE: one constructor per row of spec/opcode_table.json (spec/30_encoding.md
R70, R79; spec/45_host_operations.md R150, R151, R154). Two are block bytes the decoder executes, four are operations
the register `OP` selects, two are commands the host writes to `CMD`. -/

namespace Sys2Proof

/-- One instruction. -/
inductive Instr where
  /-- `LIT p` (R64, R116): a Literal block; bit 6 of `p` is the earliest row position. -/
  | lit (p : BitVec 7)
  /-- `RUN v, len` (R65, R115): a Run block of `len` copies of `v`, 1 to 64 (the field of the byte holds `len - 1`). -/
  | run (v : Bit) (len : Nat)
  /-- `EXTRACT` (R87), `OP` = 1. -/
  | extract
  /-- `PACK` (R144), `OP` = 2. -/
  | pack
  /-- `ENCODE` (R131), `OP` = 3. -/
  | encode
  /-- `DECODE` (R135), `OP` = 4. -/
  | decode
  /-- `START` (R151), bit 0 of a write to `CMD`. -/
  | start
  /-- `CLEAR` (R154), bit 1 of a write to `CMD`. -/
  | clear
deriving DecidableEq, Repr

end Sys2Proof
end

