-- ==== Sys2Proof/WellFormed.lean ====
section
/-! DEFINITION. Which terms of `Instr` are instructions of the hardware: a run length is 1 to 64
(spec/30_encoding.md R68: "1 ≤ length ≤ 64 ... there is no length-0 run and no escape value"). A Literal's payload has
exactly 7 bits by its type, and the other rows have no operand. -/

namespace Sys2Proof

/-- The instruction is one the hardware has. -/
def Instr.wf : Instr → Bool
  | .lit _     => true
  | .run _ len => decide (1 ≤ len) && decide (len ≤ Config.runMax)
  | .extract   => true
  | .pack      => true
  | .encode    => true
  | .decode    => true
  | .start     => true
  | .clear     => true

end Sys2Proof
end

