-- ==== Sys2Proof/Decode.lean ====
section
/-! DEFINITION. Decoding and encoding (spec/30_encoding.md R63 to R71, R79; spec/10_state.md R23, R31). There are three
code spaces: the block bytes of `BYTES`, the 3-bit value of `OP`, the 2-bit value written to `CMD`; each has a decoder.
The encoder follows, written from the same formats. -/

namespace Sys2Proof

/-- The code spaces of spec/opcode_table.json (its column "space"). -/
inductive Space where
  /-- a block byte in `BYTES`, executed by `DEC` -/
  | block
  /-- the value of the host register `OP` at `START` -/
  | op
  /-- the value of a host write to the register `CMD` -/
  | cmd
deriving DecidableEq, Repr

/-- Why a code names no instruction. -/
inductive DecodeError where
  /-- `OP` is 0, 5, 6 or 7, which "select nothing" (R23, R79) -/
  | noOperation (code : BitVec 3)
  /-- a write to `CMD` with neither bit set: "writing 0 does nothing" (R31) -/
  | noCommand
deriving DecidableEq, Repr

/-- A decoded block byte (R63: "one byte, one of two variants"). -/
inductive Block where
  | lit (p : BitVec 7)
  | run (v : Bit) (len : Nat)
deriving DecidableEq, Repr

/-- The four operations `OP` selects (R23, R150). -/
inductive Operation where
  | extract
  | pack
  | encode
  | decode
deriving DecidableEq, Repr

/-- The instruction a block is. -/
def Block.toInstr : Block → Instr
  | .lit p     => .lit p
  | .run v len => .run v len

/-- The instruction an operation is. -/
def Operation.toInstr : Operation → Instr
  | .extract => .extract
  | .pack    => .pack
  | .encode  => .encode
  | .decode  => .decode

/-- The block a byte is: bit 7 alone chooses the format (R66); a Run's value is bit 6 and its length
`(byte & 0x3F) + 1` (R65, R68, R69); a Literal's payload is bits 6..0 (R64). Every byte is a block (R71). -/
def decodeBlock (b : Byte) : Block :=
  if b.getLsbD 7 then .run (b.getLsbD 6) ((b &&& 0x3F#8).toNat + 1) else .lit (b.setWidth 7)

/-- The operation a value of `OP` selects (R23, R79). -/
def decodeOp (c : BitVec 3) : Except DecodeError Operation :=
  if c = 1#3 then .ok .extract
  else if c = 2#3 then .ok .pack
  else if c = 3#3 then .ok .encode
  else if c = 4#3 then .ok .decode
  else .error (.noOperation c)

/-- The commands a value written to `CMD` issues, in order: "Writing both bits at once is `CLEAR` then `START`" (R31). -/
def decodeCmd (c : BitVec 2) : List Instr :=
  (if c.getLsbD 1 then [.clear] else []) ++ (if c.getLsbD 0 then [.start] else [])

/-- Decode a code of a space, given as a byte; bits above the space's width do not exist (R32). A write to `CMD` can
issue two commands, so the answer is a list. -/
def decode (sp : Space) (b : Byte) : Except DecodeError (List Instr) :=
  match sp with
  | .block => .ok [(decodeBlock b).toInstr]
  | .op    => (decodeOp (b.setWidth 3)).map fun o => [o.toInstr]
  | .cmd   => if decodeCmd (b.setWidth 2) = [] then .error .noCommand else .ok (decodeCmd (b.setWidth 2))

/-- The space and the code of a well-formed instruction: `zext_8(p)` for a Literal (R67),
`0x80 | (V << 6) | (run - 1)` for a Run (R69), the codes of R23 and the bits of R31. -/
def encode : Instr → Space × Byte
  | .lit p     => (.block, p.setWidth 8)
  | .run v len => (.block, 0x80#8 ||| ((BitVec.ofBool v).setWidth 8 <<< 6) ||| BitVec.ofNat 8 (len - 1))
  | .extract   => (.op, 1#8)
  | .pack      => (.op, 2#8)
  | .encode    => (.op, 3#8)
  | .decode    => (.op, 4#8)
  | .start     => (.cmd, 1#8)
  | .clear     => (.cmd, 2#8)

/-- The code space of a word of spec/opcode_table.json asked for by its width alone: 8 bits a block byte, 3 bits a value
of `OP`, 2 bits a value of `CMD`. DESIGN CHOICE, unsafe (notes/assumptions/14.md): where an operation's 3-bit code is asked for
rounded up to a byte, the three spaces lie over each other, and the row with the most fixed bits answers, so the
8-bit words 1 to 4 are read as operations. The machine's own fetch never uses this: it reads bytes with `decodeBlock`,
`OP` with `decodeOp` and `CMD` with `decodeCmd`. -/
def tableSpace (nbits w : Nat) : Option Space :=
  if nbits = 2 then some .cmd
  else if nbits = 3 then some .op
  else if nbits = 8 then if 1 ≤ w && w ≤ 4 then some .op else some .block
  else none

/-- The instruction the decoder reads from a word of spec/opcode_table.json. -/
def decodeTableWord (nbits w : Nat) : Option Instr :=
  match tableSpace nbits w with
  | none    => none
  | some sp =>
    match decode sp (BitVec.ofNat 8 w) with
    | .ok is   => is.head?
    | .error _ => none

end Sys2Proof
end

