-- ==== Sys2Proof/Machine/State.lean ====
section
/-! DEFINITION. The state of BWR-CORE (spec/10_state.md R13, R14): the host-visible registers (R22), the three buffers
(R33), the working registers (R16); and, the model's own, the parameters in force, the host's pending moves, what the
host read last, and a counter that numbers free values. State is plain data. -/

namespace Sys2Proof.Machine

/-- A buffer's contents: the elements that something has written, by index, indices strictly rising. An index that is
not listed has no known content; `epoch` numbers the event (reset, or a failed `DECODE`) that made the contents
unspecified, so that a free value can be named for each unlisted element. -/
structure Memory (α : Type) where
  cells : List (Nat × α)
  epoch : Nat
deriving DecidableEq, Repr

/-- The working registers (R16). They exist only while `STATUS.BUSY = 1`; while the core is idle the model keeps them at
`Work.reset` (R21, notes/assumptions/5.md). The register `n` is the length of `buf` and is stored once, as `buf`. -/
structure Work where
  /-- `r`: index of the row being processed (R19) -/
  r    : Nat
  /-- `x`: the encoder's bit cursor in the current row (R17) -/
  x    : Nat
  /-- `wl`: the encoder's window length (R94) -/
  wl   : Nat
  /-- `V`: the encoder's run candidate value (R95) -/
  v    : Bit
  /-- `d`: first position differing from `V`, or the row end (R97) -/
  d    : Nat
  /-- `run`: length of the Run being emitted (R97) -/
  run  : Nat
  /-- `wp`: output write pointer of `ENC` and `PBP` (R20) -/
  wp   : Nat
  /-- `bc`: the decoder's byte cursor (R18) -/
  bc   : Nat
  /-- `bc0`: the byte cursor where the current row began (R133) -/
  bc0  : Nat
  /-- `BUF`: the decoder's output buffer of the current row (R115 to R117) -/
  buf  : List Bit
  /-- `j`: byte index of `PBP` in the current row (R143) -/
  j    : Nat
  /-- `c`: column index of `BPX` in the current row (R87) -/
  c    : Nat
deriving DecidableEq, Repr

/-- The working registers as `START` initialises them (R19, R20, R21, R93, R113, R133). -/
def Work.reset : Work :=
  { r := 0, x := 0, wl := 0, v := false, d := 0, run := 0, wp := 0, bc := 0, bc0 := 0, buf := [], j := 0, c := 0 }

/-- The three buffers (R33). -/
inductive BufName where
  | pix
  | mask
  | bytes
deriving DecidableEq, Repr

/-- The thirteen host registers (R22). -/
inductive Reg where
  | op
  | width
  | height
  | target
  | mode
  | pixLen
  | maskLen
  | bytesLen
  | consumed
  | status
  | errcode
  | errrow
  | cmd
deriving DecidableEq, Repr

/-- What can happen next outside the core (R13, R155, R156, R187): the host's accesses, the host letting the core work,
and the reset input. -/
inductive Move where
  /-- write `v` to host register number `k`; number 12, `CMD`, issues commands -/
  | writeReg (k v : Nat)
  /-- read host register number `k` -/
  | readReg (k : Nat)
  /-- store pixel `p` as element `i` of `PIX` -/
  | writePix (i : Nat) (p : Pixel)
  /-- read element `i` of `PIX` -/
  | readPix (i : Nat)
  /-- store bit `b` as element `i` of `MASK` -/
  | writeMask (i : Nat) (b : Bit)
  /-- read element `i` of `MASK` -/
  | readMask (i : Nat)
  /-- store byte `b` as element `i` of `BYTES` -/
  | writeBytes (i : Nat) (b : Byte)
  /-- read element `i` of `BYTES` -/
  | readBytes (i : Nat)
  /-- the host does nothing while the core takes one step of the running operation, if any (R159, the step form) -/
  | yield
  /-- the host waits until `STATUS.BUSY` reads 0 (R160): the running operation runs to its end (R159, the atomic form) -/
  | wait
  /-- the reset input (R187) -/
  | reset
deriving DecidableEq, Repr

/-- What a host read delivered. -/
inductive Datum where
  | reg (v : Nat)
  | pixel (p : Pixel)
  | bit (b : Bit)
  | byte (b : Byte)
deriving DecidableEq, Repr

/-- Why a step stops with a fault. No instruction raises one: the exceptions of R164 are next states. -/
inductive Fault where
  /-- Raised by a host access to an element at or past the buffer's capacity: the spec gives the buffer no such element
  (R33, R53, R156). SAFE: the model stops where the platform may do anything. -/
  | noSuchElement (buf : BufName) (i : Nat)
deriving DecidableEq, Repr

/-- Why a step is refused. -/
inductive Refusal where
  /-- Raised by an arm of `exec` whose instruction has no meaning yet; no arm does. SAFE: the model stops. -/
  | notModelled (mnemonic : String)
  /-- Raised by a host write to a buffer while `STATUS.BUSY = 1`: "the spec gives such a write no meaning: a model gives
  the host no such move" (R156, U6). SAFE: the model stops. -/
  | bufferWriteWhileBusy (buf : BufName)
deriving DecidableEq, Repr

/-- The state of the block and of the host's side of it. -/
structure State where
  /-- the OPEN parameters in force (R10); no step changes them -/
  params   : Params
  /-- register 0 (R23) -/
  op       : BitVec 3
  /-- register 1, `DIM_BITS` bits (R24) -/
  width    : Nat
  /-- register 2, `DIM_BITS` bits (R24) -/
  height   : Nat
  /-- register 3: R, G, B from the top (R25) -/
  target   : BitVec 24
  /-- register 4: bit 0 is `STRICT` (R26) -/
  mode     : BitVec 1
  /-- register 5, `LEN_BITS` bits (R27) -/
  pixLen   : Nat
  /-- register 6, `LEN_BITS` bits (R27) -/
  maskLen  : Nat
  /-- register 7, `LEN_BITS` bits (R27) -/
  bytesLen : Nat
  /-- register 8, `LEN_BITS` bits (R28) -/
  consumed : Nat
  /-- register 9: `BUSY` bit 0, `DONE` bit 1, `ERR` bit 2 (R29) -/
  status   : BitVec 3
  /-- register 10 (R30) -/
  errcode  : BitVec 2
  /-- register 11, `DIM_BITS` bits (R30) -/
  errrow   : Nat
  /-- the raster (R41) -/
  pix      : Memory Pixel
  /-- the boolean grid (R42) -/
  mask     : Memory Bit
  /-- the byte sequence (R43) -/
  bytes    : Memory Byte
  /-- the working registers (R16) -/
  work     : Work
  /-- MODEL: what happens next outside the core, first move first -/
  agenda   : List Move
  /-- MODEL: what the host's last read delivered -/
  lastRead : Datum
  /-- MODEL: the number of the next free value -/
  fresh    : Nat
deriving DecidableEq, Repr

/-- The machine right after reset (R37, R188): every register 0 but `MODE.STRICT` = 1, the core idle, no buffer element
known. The parameters are the ones the spec suggests (notes/assumptions/1.md). -/
def State.reset : State :=
  { params := Params.suggested
    op := 0#3, width := 0, height := 0, target := 0#24, mode := 1#1
    pixLen := 0, maskLen := 0, bytesLen := 0, consumed := 0
    status := 0#3, errcode := 0#2, errrow := 0
    pix := { cells := [], epoch := 0 }
    mask := { cells := [], epoch := 0 }
    bytes := { cells := [], epoch := 0 }
    work := Work.reset
    agenda := [], lastRead := .reg 0, fresh := 1 }

end Sys2Proof.Machine
end

