-- ==== Sys2Proof/Machine/Flags.lean ====
section
/-! DEFINITION. The flags of `STATUS` (spec/10_state.md R29): the only flags of the block ("there are no arithmetic
condition codes"). No block byte and no data value writes one; only `START`, completion, a raise, `CLEAR` and reset do. -/

namespace Sys2Proof.Machine

/-- `ERR DONE BUSY` = `0 0 0`: idle, nothing to report. -/
def Status.idle : BitVec 3 := 0b000#3

/-- `0 0 1`: an operation is running. -/
def Status.running : BitVec 3 := 0b001#3

/-- `0 1 0`: the last operation finished and its outputs are valid. -/
def Status.done : BitVec 3 := 0b010#3

/-- `1 1 0`: the last operation failed. -/
def Status.failed : BitVec 3 := 0b110#3

/-- `STATUS.BUSY`, bit 0. -/
def State.busy (s : State) : Bool := s.status.getLsbD 0

/-- `STATUS.DONE`, bit 1. -/
def State.done (s : State) : Bool := s.status.getLsbD 1

/-- `STATUS.ERR`, bit 2. -/
def State.err (s : State) : Bool := s.status.getLsbD 2

/-- `MODE.STRICT`, bit 0 of `MODE` (R26). -/
def State.strict (s : State) : Bool := s.mode.getLsbD 0

/-- The legal combinations of the flags (R29: "No other combination occurs"). -/
def Status.legal (st : BitVec 3) : Bool :=
  st = Status.idle || st = Status.running || st = Status.done || st = Status.failed

end Sys2Proof.Machine
end

