-- ==== Sys2Proof/Machine/Ops.lean ====
section
/-! DEFINITION. The named operations over the buffers and the registers: reading and writing an element (spec/20_memory.md
R44), the end of an operation (spec/45_host_operations.md R153), raising an exception and the return from one
(spec/60_exceptions.md R169 to R172, R176), and the host's reads and writes of registers (spec/10_state.md R22, R32;
R155). -/

namespace Sys2Proof.Machine

/-! ### A buffer -/

/-- What an index that is not listed reads as: no known content (notes/assumptions/2.md). -/
def Memory.unlisted {α : Type} : Option α := none

/-- The listed content of index `i`. -/
def Memory.lookup {α : Type} (i : Nat) : List (Nat × α) → Option α
  | []           => Memory.unlisted
  | (k, v) :: cs => if k = i then some v else Memory.lookup i cs

/-- The known content of element `i`, if there is one. -/
def Memory.read {α : Type} (m : Memory α) (i : Nat) : Option α := Memory.lookup i m.cells

/-- Put `v` at index `i` of a list of cells with rising indices. -/
def Memory.insert {α : Type} (i : Nat) (v : α) : List (Nat × α) → List (Nat × α)
  | []           => [(i, v)]
  | (k, w) :: cs =>
    if i < k then (i, v) :: (k, w) :: cs
    else if i = k then (i, v) :: cs
    else (k, w) :: Memory.insert i v cs

/-- Store `v` as element `i`. -/
def Memory.write {α : Type} (m : Memory α) (i : Nat) (v : α) : Memory α :=
  { m with cells := Memory.insert i v m.cells }

/-- Store the elements of a list from index `i` upward. -/
def Memory.writeAll {α : Type} (m : Memory α) (i : Nat) : List α → Memory α
  | []      => m
  | v :: vs => Memory.writeAll (m.write i v) (i + 1) vs

/-- All contents become unspecified: the event is numbered `epoch`. -/
def Memory.forget {α : Type} (_ : Memory α) (epoch : Nat) : Memory α := { cells := [], epoch := epoch }

/-- Indices strictly rise, from `lo` on. -/
def Memory.rising {α : Type} (lo : Nat) : List (Nat × α) → Bool
  | []           => true
  | (k, _) :: cs => decide (lo ≤ k) && Memory.rising (k + 1) cs

/-- The canonical form: indices strictly rise. (An unlisted index has no content, so no entry can repeat it.) -/
def Memory.wf {α : Type} (m : Memory α) : Bool := Memory.rising 0 m.cells

/-- `MemRead(PIX, i)`: the known content, or the free value of a never-written element. -/
def State.pixelAt (s : State) (i : Nat) : Pixel := (s.pix.read i).getD (Config.freePixel s.pix.epoch i)

/-- `MemRead(MASK, i)`. -/
def State.maskAt (s : State) (i : Nat) : Bit := (s.mask.read i).getD (Config.freeBit s.mask.epoch i)

/-- `MemRead(BYTES, i)`. -/
def State.byteAt (s : State) (i : Nat) : Byte := (s.bytes.read i).getD (Config.freeByte s.bytes.epoch i)

/-- `MemWrite(PIX, i, v)`. -/
def State.putPixel (s : State) (i : Nat) (v : Pixel) : State := { s with pix := s.pix.write i v }

/-- `MemWrite(MASK, i, v)`. -/
def State.putBit (s : State) (i : Nat) (v : Bit) : State := { s with mask := s.mask.write i v }

/-- `MemWrite(BYTES, i, v)`. -/
def State.putByte (s : State) (i : Nat) (v : Byte) : State := { s with bytes := s.bytes.write i v }

/-- `MemWrite(MASK, i + k, row[k])` for every position `k` of a row (R135). -/
def State.putRow (s : State) (i : Nat) (row : Row) : State := { s with mask := s.mask.writeAll i row }

/-- The whole content of `MASK` becomes unspecified (R172); the event takes a fresh number. -/
def State.forgetMask (s : State) : State := { s with mask := s.mask.forget s.fresh, fresh := s.fresh + 1 }

/-- `n` elements fit a capacity; an unbounded buffer holds any number (R10). -/
def fits (n : Nat) : Option Nat → Bool
  | none   => true
  | some c => decide (n ≤ c)

/-- Element `i` exists in a buffer of this capacity. -/
def inCap (i : Nat) : Option Nat → Bool
  | none   => true
  | some c => decide (i < c)

/-! ### The end of an operation: completion, and the exceptions -/

/-- The working registers take new values. -/
def State.withWork (s : State) (w : Work) : State := { s with work := w }

/-- Completion (R153): `STATUS <- (ERR 0, DONE 1, BUSY 0)`; the working registers end (R21). -/
def State.finish (s : State) : State := { s with status := Status.done, work := Work.reset }

/-- TAKING AN EXCEPTION (R170, R171), the part every raise shares: the code and the row are recorded,
`STATUS <- (ERR 1, DONE 1, BUSY 0)`, the working registers end. "Control goes nowhere: there is no handler address, no
vector table, no mode change, no saved program counter." -/
def State.takeException (s : State) (code : BitVec 2) (row : Nat) : State :=
  { s with errcode := code, errrow := row, status := Status.failed, work := Work.reset }

/-- `raise FormatError(code, row)` (R169, R170, R172): `MASK_LEN <- 0`, the content of `MASK` is unspecified,
`CONSUMED <- bc`, and the exception is taken. At a truncated stream `bc = BYTES_LEN`. -/
def State.raiseFormat (s : State) (code : BitVec 2) (row : Nat) : State :=
  State.takeException { s.forgetMask with maskLen := 0, consumed := s.work.bc } code row

/-- `FORMAT_TRUNCATED` (R164, R165). -/
def Err.truncated : BitVec 2 := 1#2

/-- `FORMAT_TRAILING` (R164, R166). -/
def Err.trailing : BitVec 2 := 2#2

/-- `CONTRACT` (R164, R167). -/
def Err.contract : BitVec 2 := 3#2

/-- `raise ContractViolation(check)` (R171): code 3, row 0; no buffer and no length register changes. -/
def State.raiseContract (s : State) : State := s.takeException Err.contract 0

/-- The return from an exception, and from any outcome (R154, R176): "`STATUS`, `ERRCODE`, `ERRROW`" go to their no-error
values, and nothing else is restored. -/
def State.clearOutcome (s : State) : State := { s with status := Status.idle, errcode := 0#2, errrow := 0 }

/-! ### The host's registers -/

/-- The register a number names; numbers 13 and above name none (R22, R32). -/
def Reg.ofNum : Nat → Option Reg
  | 0  => some .op
  | 1  => some .width
  | 2  => some .height
  | 3  => some .target
  | 4  => some .mode
  | 5  => some .pixLen
  | 6  => some .maskLen
  | 7  => some .bytesLen
  | 8  => some .consumed
  | 9  => some .status
  | 10 => some .errcode
  | 11 => some .errrow
  | 12 => some .cmd
  | _  => none

/-- A register's width in bits (R22). -/
def Reg.bits (p : Params) : Reg → Nat
  | .op       => 3
  | .width    => p.dimBits
  | .height   => p.dimBits
  | .target   => 24
  | .mode     => 1
  | .pixLen   => p.lenBits
  | .maskLen  => p.lenBits
  | .bytesLen => p.lenBits
  | .consumed => p.lenBits
  | .status   => 3
  | .errcode  => 2
  | .errrow   => p.dimBits
  | .cmd      => 2

/-- The value a register holds. `CMD` "stores nothing and reads as 0" (R31). -/
def State.regValue (s : State) : Reg → Nat
  | .op       => s.op.toNat
  | .width    => s.width
  | .height   => s.height
  | .target   => s.target.toNat
  | .mode     => s.mode.toNat
  | .pixLen   => s.pixLen
  | .maskLen  => s.maskLen
  | .bytesLen => s.bytesLen
  | .consumed => s.consumed
  | .status   => s.status.toNat
  | .errcode  => s.errcode.toNat
  | .errrow   => s.errrow
  | .cmd      => 0

/-- A result register: while an operation runs a read of it "returns an unspecified value" (R155). -/
def Reg.isResult : Reg → Bool
  | .maskLen  => true
  | .bytesLen => true
  | .consumed => true
  | .errcode  => true
  | .errrow   => true
  | .op       => false
  | .width    => false
  | .height   => false
  | .target   => false
  | .mode     => false
  | .pixLen   => false
  | .status   => false
  | .cmd      => false

/-- The host stores `v` in a register it may write; bits above the width are ignored (R32), and a register it may not
write keeps its value (R22, notes/assumptions/9.md). `CMD` stores nothing (R31). -/
def State.setReg (s : State) (v : Nat) : Reg → State
  | .op       => { s with op := BitVec.ofNat 3 v }
  | .width    => { s with width := v % 2 ^ s.params.dimBits }
  | .height   => { s with height := v % 2 ^ s.params.dimBits }
  | .target   => { s with target := BitVec.ofNat 24 v }
  | .mode     => { s with mode := BitVec.ofNat 1 v }
  | .pixLen   => { s with pixLen := v % 2 ^ s.params.lenBits }
  | .maskLen  => { s with maskLen := v % 2 ^ s.params.lenBits }
  | .bytesLen => { s with bytesLen := v % 2 ^ s.params.lenBits }
  | .consumed => s
  | .status   => s
  | .errcode  => s
  | .errrow   => s
  | .cmd      => s

/-- A host write to register number `k` other than `CMD`: ignored while an operation runs (R155) and where there is no
such register (R32). -/
def State.hostWriteReg (s : State) (k v : Nat) : State :=
  if s.busy then s
  else match Reg.ofNum k with
    | some g => s.setReg v g
    | none   => s

/-- What the host's read delivered. -/
def State.deliver (s : State) (d : Datum) : State := { s with lastRead := d }

/-- A free value was used: the next one has the next number. -/
def State.nextFree (s : State) : State := { s with fresh := s.fresh + 1 }

/-- A host read of register number `k` (R47, R155): the register's value; 0 where there is no such register (R32); and
while an operation runs a free value, cut to the register's width, for a result register. -/
def State.hostReadReg (s : State) (k : Nat) : State :=
  match Reg.ofNum k with
  | none   => s.deliver (.reg 0)
  | some g =>
    if s.busy && g.isResult then (s.deliver (.reg (Config.freeReg s.fresh % 2 ^ g.bits s.params))).nextFree
    else s.deliver (.reg (s.regValue g))

/-- Reset (R187 to R189): the registers take their reset values, the running operation is abandoned with no record, and
the contents of all three buffers become unspecified. The parameters, the moves still to come and what the host has
read are no registers of the block. -/
def State.resetCore (s : State) : State :=
  { State.reset with
    params := s.params
    pix := s.pix.forget s.fresh
    mask := s.mask.forget s.fresh
    bytes := s.bytes.forget s.fresh
    agenda := s.agenda
    lastRead := s.lastRead
    fresh := s.fresh + 1 }

end Sys2Proof.Machine
end

