-- ==== Sys2Proof/Machine/Operands.lean ====
section
/-! DEFINITION. The operand forms: the element index `r × WIDTH + c` (spec/20_memory.md R41, R42), the row slice, the
target triple (spec/10_state.md R25), the encoder's window and run scan (spec/41_rle_encoder.md R94, R95, R97), and the
fields of a byte, most significant first (R48, spec/30_encoding.md R67, R69, R77). -/

namespace Sys2Proof.Machine

/-- `ceil(a / b)`, with `ceil(0 / b) = 0` (R11). -/
def ceilDiv (a b : Nat) : Nat := (a + b - 1) / b

/-- The index in `PIX` and `MASK` of row `r`, column `c`: `r × WIDTH + c` (R41, R42). -/
def State.index (s : State) (r c : Nat) : Nat := r * s.width + c

/-- The BooleanRow `row(r)`: `MASK[r × W .. (r + 1) × W)` (R42). -/
def State.row (s : State) (r : Nat) : Row := (List.range s.width).map fun c => s.maskAt (s.index r c)

/-- The triple in `TARGET`: `R` = [23:16], `G` = [15:8], `B` = [7:0] (R25). -/
def State.targetPixel (s : State) : Pixel :=
  { r := s.target.extractLsb' 16 8, g := s.target.extractLsb' 8 8, b := s.target.extractLsb' 0 8 }

/-- The cell function of `BPX` (R86): all three channels equal, bit for bit. -/
def matchPixel (p t : Pixel) : Bit := decide (p.r = t.r) && decide (p.g = t.g) && decide (p.b = t.b)

/-- The window's length at cursor `x` of a row of width `W`: `min(7, W - x)` (R94). -/
def windowLen (x W : Nat) : Nat := min Config.window (W - x)

/-- The window: up to 7 bits of the row from `x` on (R94). -/
def windowAt (R : Row) (x : Nat) : List Bit := (R.drop x).take (windowLen x R.length)

/-- The bit of the row at position `x`. -/
def bitAt (R : Row) (x : Nat) : Bit := R.getD x false

/-- Every bit of the window equals the row's bit at `x` (R95). -/
def uniformAt (R : Row) (x : Nat) : Bool := (windowAt R x).all fun b => b == bitAt R x

/-- The least position from `x` on whose bit differs from `V`, or the row end (R97: `d`). -/
def runEnd (R : Row) (x : Nat) (V : Bit) : Nat := x + ((R.drop x).takeWhile fun b => b == V).length

/-- Put bits into a byte from bit `hi` downward: the first bit at bit `hi`, the next at `hi - 1` (R48). -/
def msbFirst (hi : Nat) : List Bit → Byte
  | []      => 0#8
  | b :: bs => ((BitVec.ofBool b).setWidth 8 <<< hi) ||| msbFirst (hi - 1) bs

/-- The Literal byte of a window (R67, R96): position `x + i` in bit `6 - i`, the rest 0. -/
def litByte (win : List Bit) : Byte := msbFirst 6 win

/-- The Run byte `0x80 | (V << 6) | (run - 1)` (R69, R97). -/
def runByte (V : Bit) (run : Nat) : Byte :=
  0x80#8 ||| ((BitVec.ofBool V).setWidth 8 <<< 6) ||| BitVec.ofNat 8 (run - 1)

/-- The seven bits of a Literal's payload, bit 6 first (R64, R116). -/
def litBits (p : BitVec 7) : List Bit :=
  [p.getLsbD 6, p.getLsbD 5, p.getLsbD 4, p.getLsbD 3, p.getLsbD 2, p.getLsbD 1, p.getLsbD 0]

/-- Byte `j` of a packed row: position `8j + i` in bit `7 - i`, positions past the row's end 0 (R77, R143). -/
def packByte (R : Row) (j : Nat) : Byte := msbFirst 7 ((R.drop (Config.packBits * j)).take Config.packBits)

/-- Bytes of a packed row of width `W` (R143). -/
def packedLen (W : Nat) : Nat := ceilDiv W Config.packBits

/-- The most bytes an encoded row of width `W` can take (R108). -/
def encodedMax (W : Nat) : Nat := ceilDiv W Config.window

end Sys2Proof.Machine
end

