-- ==== Sys2Proof/Machine/Contract.lean ====
section
/-! DEFINITION. The contract checks K1 to K8 made at `START` (spec/45_host_operations.md R152). -/

namespace Sys2Proof.Machine

/-- The operation `OP` selects, if it selects one (R23). -/
def State.operation (s : State) : Option Operation := (decodeOp s.op).toOption

/-- `W × H` (R152). -/
def State.area (s : State) : Nat := s.width * s.height

/-- K2 and K3: `PIX_LEN = W × H`, and the raster and the grid fit. -/
def State.extractContract (s : State) : Bool :=
  decide (s.pixLen = s.area) && fits s.pixLen s.params.pixCap && fits s.area s.params.maskCap

/-- K4, K5 and K6: `MASK_LEN = W × H`, and the mask and the packed plane fit. -/
def State.packContract (s : State) : Bool :=
  decide (s.maskLen = s.area) && fits s.maskLen s.params.maskCap
    && fits (s.height * packedLen s.width) s.params.bytesCap

/-- K4, K5 and K7: `MASK_LEN = W × H`, and the mask and the longest encoded plane fit. -/
def State.encodeContract (s : State) : Bool :=
  decide (s.maskLen = s.area) && fits s.maskLen s.params.maskCap
    && fits (s.height * encodedMax s.width) s.params.bytesCap

/-- K8: the stream and the grid fit. -/
def State.decodeContract (s : State) : Bool :=
  fits s.bytesLen s.params.bytesCap && fits s.area s.params.maskCap

/-- Every check that applies passes (R152); K1: `OP` selects an operation. -/
def State.contractOk (s : State) : Bool :=
  match s.operation with
  | none          => false
  | some .extract => s.extractContract
  | some .pack    => s.packContract
  | some .encode  => s.encodeContract
  | some .decode  => s.decodeContract

end Sys2Proof.Machine
end

