-- ==== Sys2Proof/Machine/Command.lean ====
section
/-! DEFINITION. The commands `START` and `CLEAR` (spec/45_host_operations.md R151, R154). -/

namespace Sys2Proof.Machine

/-- An operation begins: `STATUS <- (ERR 0, DONE 0, BUSY 1); ERRCODE <- 0; ERRROW <- 0` (R151), and the working registers
are initialised (R19, R20, R21). -/
def State.begin (s : State) : State :=
  { s with status := Status.running, errcode := 0#2, errrow := 0, work := Work.reset }

/-- The state after `START` (R151): ignored while an operation runs; otherwise the operation begins, and a failing check
raises the contract violation at once. -/
def startState (s : State) : State :=
  if s.busy then s
  else if s.begin.contractOk then s.begin
  else s.begin.raiseContract

/-- The state after `CLEAR` (R154): ignored while an operation runs. -/
def clearState (s : State) : State := if s.busy then s else s.clearOutcome

/-- `START`. -/
def execStart (s : State) : Host.Outcome State Fault Refusal := .next (startState s)

/-- `CLEAR`. -/
def execClear (s : State) : Host.Outcome State Fault Refusal := .next (clearState s)

end Sys2Proof.Machine
end

