-- ==== Sys2Proof/Machine/Functions.lean ====
section
/-! DEFINITION. The function view of the units: the source's pure functions on rows and planes (spec/20_memory.md R55:
"A model may treat an operation as one deterministic function"). `enc_row` (R93), `dec_row` (R113), `pack_row` (R143)
and their plane forms (R130, R133, R144). The operations of the machine are written as the step sequences of the spec's
loops; statements compare them with these functions. -/

namespace Sys2Proof.Machine

/-- One step of the encoder at cursor `x` of a row (R93): the byte it emits and the next cursor. A uniform window gives
a Run to the end of the stretch or 64 (R97); a mixed one a Literal of 7 positions, clamped to the row end (R96, R99). -/
def encBlock (R : Row) (x : Nat) : Byte × Nat :=
  if uniformAt R x then
    (runByte (bitAt R x) (min Config.runMax (runEnd R x (bitAt R x) - x)),
      x + min Config.runMax (runEnd R x (bitAt R x) - x))
  else (litByte (windowAt R x), min (x + Config.window) R.length)

/-- The encoder's loop from cursor `x` (R93), at most `n` steps. -/
def encFrom (R : Row) : Nat → Nat → List Byte
  | 0, _     => []
  | n + 1, x => if x < R.length then (encBlock R x).1 :: encFrom R n (encBlock R x).2 else []

/-- `enc_row(R)` (R92, R93). A row of width `W` takes at most `W` steps, since each covers a position. -/
def encRow (R : Row) : List Byte := encFrom R R.length 0

/-- `encode_plane` (R130): the encoded rows one after another. -/
def encPlane (rows : List Row) : List Byte := rows.flatMap encRow

/-- The bits a block appends to `BUF` (R115, R116). -/
def blockBits : Block → List Bit
  | .lit p     => litBits p
  | .run v len => List.replicate len v

/-- The decoder's loop (R113) with `BUF` = `buf` and `k` bytes read so far, on the bytes that remain: the row and the
number of bytes read, or nothing where a byte is needed and none is left (R114). -/
def decFrom (W : Nat) (buf : Row) (k : Nat) : List Byte → Option (Row × Nat)
  | []      => if W ≤ buf.length then some (buf.take W, k) else none
  | b :: bs =>
    if W ≤ buf.length then some (buf.take W, k) else decFrom W (buf ++ blockBits (decodeBlock b)) (k + 1) bs

/-- `dec_row` (R112) on the bytes from the cursor on. -/
def decRow (W : Nat) (B : List Byte) : Option (Row × Nat) := decFrom W [] 0 B

/-- How a plane decode fails (R164). -/
inductive DecFail where
  /-- the stream ran out in this row (R165) -/
  | truncated (row : Nat)
  /-- bytes remain after this many were used, in strict mode (R166) -/
  | trailing (used : Nat)
deriving DecidableEq, Repr

/-- The row loop of `decode_plane` (R133) for `h` more rows from row `r` on: the rows and the bytes used. -/
def decRows (W : Nat) : Nat → Nat → List Byte → Except DecFail (List Row × Nat)
  | 0, _, _      => .ok ([], 0)
  | h + 1, r, bs =>
    match decRow W bs with
    | none          => .error (.truncated r)
    | some (row, k) =>
      match decRows W h (r + 1) (bs.drop k) with
      | .ok (rows, used) => .ok (row :: rows, k + used)
      | .error e         => .error e

/-- `decode_plane(B, LEN, W, H, STRICT)` (R133), the end check included (R134). -/
def decPlane (B : List Byte) (W H : Nat) (strict : Bool) : Except DecFail (List Row × Nat) :=
  match decRows W H 0 B with
  | .error e         => .error e
  | .ok (rows, used) => if strict && used != B.length then .error (.trailing used) else .ok (rows, used)

/-- `pack_row(R)` (R143). -/
def packRow (R : Row) : List Byte := (List.range (packedLen R.length)).map (packByte R)

/-- The packed plane (R144): the packed rows one after another. -/
def packPlane (rows : List Row) : List Byte := rows.flatMap packRow

/-- The grid in `MASK`, row by row (R42). -/
def State.grid (s : State) : List Row := (List.range s.height).map s.row

/-- The bytes of `BYTES` up to `BYTES_LEN` (R43). -/
def State.stream (s : State) : List Byte := (List.range s.bytesLen).map s.byteAt

end Sys2Proof.Machine
end

