-- ==== Sys2Proof/Machine/Blocks.lean ====
section
/-! DEFINITION. `DEC`'s two block executions, `LIT` and `RUN` (spec/42_rle_decoder.md R115, R116), on a state whose byte
cursor has passed the block's byte (the fetch, R114). -/

namespace Sys2Proof.Machine

/-- `BUF <- BUF ++ bits`. -/
def State.appendBits (s : State) (bits : List Bit) : State := s.withWork { s.work with buf := s.work.buf ++ bits }

/-- The state after `LIT p` (R116): seven bits, most significant first. -/
def litState (p : BitVec 7) (s : State) : State := s.appendBits (litBits p)

/-- The state after `RUN v, len` (R115): `len` copies of `v`. -/
def runState (v : Bit) (len : Nat) (s : State) : State := s.appendBits (List.replicate len v)

/-- `LIT` (R116). It changes nothing but `BUF`: no flag, no exception. -/
def execLit (p : BitVec 7) (s : State) : Host.Outcome State Fault Refusal := .next (litState p s)

/-- `RUN` (R115). It changes nothing but `BUF`: no flag, no exception; the whole length is appended even where it passes
the row's end. -/
def execRun (v : Bit) (len : Nat) (s : State) : Host.Outcome State Fault Refusal := .next (runState v len s)

end Sys2Proof.Machine
end

