-- ==== Sys2Proof/Machine/Loop.lean ====
section
/-! DEFINITION. Running an operation to its end (spec/45_host_operations.md R151, R153, R158): its step again and again
while `STATUS.BUSY = 1`. -/

namespace Sys2Proof.Machine

/-- At most `n` steps of an operation, stopping where the core is idle. -/
def runBusy (tick : State → State) : Nat → State → State
  | 0, s     => s
  | n + 1, s => if s.busy then runBusy tick n (tick s) else s

/-- More steps than any operation makes (R158): a row takes at most `W` steps and a row end, `DECODE` at most
`BYTES_LEN` block steps and `H` row ends, and one step completes or raises. -/
def State.stepBound (s : State) : Nat := s.height * (s.width + 1) + s.width + s.bytesLen + 1

/-- Run the operation to completion or to a raise. -/
def runToEnd (tick : State → State) (s : State) : State := runBusy tick s.stepBound s

end Sys2Proof.Machine
end

