-- ==== Sys2Proof/Machine/DecodePlane.lean ====
section
/-! DEFINITION. `DEC`, operation `DECODE`: the row loop of spec/43_plane_operations.md R133 to R135 and the block loop of
spec/42_rle_decoder.md R113 to R118. -/

namespace Sys2Proof.Machine

/-- Where a running `DECODE` stands (R113, R133): the four things its next step can be. -/
inductive DecPhase where
  /-- every row is decoded: the end check (R134) -/
  | planeEnd
  /-- the row is complete: truncate and store it (R117, R118) -/
  | rowEnd
  /-- a byte is needed and none is left (R114, R165) -/
  | exhausted
  /-- a byte is needed: fetch and execute it (R114 to R116) -/
  | block
deriving DecidableEq, Repr

/-- The loop tests, in the spec's order: the row loop's before the block loop's, and that one "before each fetch"
(R113). -/
def State.decPhase (s : State) : DecPhase :=
  if s.height ≤ s.work.r then .planeEnd
  else if s.width ≤ s.work.buf.length then .rowEnd
  else if s.bytesLen ≤ s.work.bc then .exhausted
  else .block

/-- The byte at the cursor. -/
def State.fetchByte (s : State) : Byte := s.byteAt s.work.bc

/-- The fetch moves the cursor: `bc <- bc + 1` (R114). -/
def State.fetched (s : State) : State := s.withWork { s.work with bc := s.work.bc + 1 }

/-- The state after a block is executed. -/
def blockState : Block → State → State
  | .lit p, s     => litState p s
  | .run v len, s => runState v len s

/-- The end of a row (R117, R118, R133, R135): `BUF[0 .. W)` goes to `MASK[r × W ..)`, the bits past it go nowhere, the
next row starts with `BUF` empty where this one stopped. -/
def endRow (s : State) : State :=
  (s.putRow (s.index s.work.r 0) (s.work.buf.take s.width)).withWork
    { s.work with r := s.work.r + 1, bc0 := s.work.bc, buf := [] }

/-- The end of the plane (R134, R135): in strict mode bytes that remain raise `FORMAT_TRAILING` with row `HEIGHT`;
otherwise `MASK_LEN <- W × H`, `CONSUMED <- bc` and completion. -/
def finishDecode (s : State) : State :=
  if s.strict && s.work.bc != s.bytesLen then s.raiseFormat Err.trailing s.height
  else State.finish { s with maskLen := s.width * s.height, consumed := s.work.bc }

/-- One step of `DECODE`: one block, the end of a row, completion, or a raise. -/
def decodeTick (s : State) : State :=
  match s.decPhase with
  | .planeEnd  => finishDecode s
  | .rowEnd    => endRow s
  | .exhausted => s.raiseFormat Err.truncated s.work.r
  | .block     => blockState (decodeBlock s.fetchByte) s.fetched

/-- `DECODE`: the operation a `START` has begun runs to its end, completion or a raise (R135, R151, R153). With no
operation running nothing runs (R37, notes/assumptions/8.md). -/
def execDecode (s : State) : Host.Outcome State Fault Refusal := .next (runToEnd decodeTick s)

end Sys2Proof.Machine
end

