-- ==== Sys2Proof/Machine/Pack.lean ====
section
/-! DEFINITION. `PBP`, operation `PACK` (spec/44_bit_packer.md R142 to R145). -/

namespace Sys2Proof.Machine

/-- `MemWrite(BYTES, wp, b); wp <- wp + 1` (R20), with the other working registers as given. -/
def State.emit (s : State) (b : Byte) (w : Work) : State :=
  (s.putByte s.work.wp b).withWork { w with wp := s.work.wp + 1 }

/-- `BYTES_LEN <- wp` and completion (R20, R131, R144). -/
def finishBytes (s : State) : State := State.finish { s with bytesLen := s.work.wp }

/-- One step of `PACK` (R144): one byte, the end of a row, or completion. -/
def packTick (s : State) : State :=
  if s.height ≤ s.work.r then finishBytes s
  else if packedLen s.width ≤ s.work.j then s.withWork { s.work with r := s.work.r + 1, j := 0 }
  else s.emit (packByte (s.row s.work.r) s.work.j) { s.work with j := s.work.j + 1 }

/-- `PACK`: the operation a `START` has begun runs to its end (R144, R151, R153). With no operation running nothing runs
(R37, notes/assumptions/8.md). -/
def execPack (s : State) : Host.Outcome State Fault Refusal := .next (runToEnd packTick s)

end Sys2Proof.Machine
end

