-- ==== Sys2Proof/Machine/Encode.lean ====
section
/-! DEFINITION. `ENC`, operation `ENCODE`: the loop of spec/43_plane_operations.md R131 over the rows, the emissions of
spec/41_rle_encoder.md R93 to R99 within a row. -/

namespace Sys2Proof.Machine

/-- `EMIT_RUN` (R97) on the row `R`: `V`, `d` and `run` are found, the Run byte is emitted, the cursor moves by `run`. -/
def emitRun (s : State) (R : Row) : State :=
  let V := bitAt R s.work.x
  let d := runEnd R s.work.x V
  let run := min Config.runMax (d - s.work.x)
  s.emit (runByte V run)
    { s.work with wl := windowLen s.work.x R.length, v := V, d := d, run := run, x := s.work.x + run }

/-- `EMIT_LIT` (R96) on the row `R`: the Literal byte is emitted, the cursor moves to `min(x + 7, W)` (R99). -/
def emitLit (s : State) (R : Row) : State :=
  s.emit (litByte (windowAt R s.work.x))
    { s.work with wl := windowLen s.work.x R.length, x := min (s.work.x + Config.window) R.length }

/-- One step of `ENCODE` (R93, R131): one block, the end of a row, or completion. -/
def encodeTick (s : State) : State :=
  if s.height ≤ s.work.r then finishBytes s
  else if s.width ≤ s.work.x then s.withWork { s.work with r := s.work.r + 1, x := 0 }
  else if uniformAt (s.row s.work.r) s.work.x then emitRun s (s.row s.work.r)
  else emitLit s (s.row s.work.r)

/-- `ENCODE`: the operation a `START` has begun runs to its end (R131, R151, R153). With no operation running nothing
runs (R37, notes/assumptions/8.md). -/
def execEncode (s : State) : Host.Outcome State Fault Refusal := .next (runToEnd encodeTick s)

end Sys2Proof.Machine
end

