-- ==== Sys2Proof/Machine/Extract.lean ====
section
/-! DEFINITION. `BPX`, operation `EXTRACT` (spec/40_bitplane_extractor.md R85 to R90). -/

namespace Sys2Proof.Machine

/-- `MASK_LEN <- W × H` and completion (R87). -/
def finishExtract (s : State) : State := State.finish { s with maskLen := s.width * s.height }

/-- One step of `EXTRACT` (R87): one cell, the end of a row, or completion. -/
def extractTick (s : State) : State :=
  if s.height ≤ s.work.r then finishExtract s
  else if s.width ≤ s.work.c then s.withWork { s.work with r := s.work.r + 1, c := 0 }
  else
    (s.putBit (s.index s.work.r s.work.c)
        (matchPixel (s.pixelAt (s.index s.work.r s.work.c)) s.targetPixel)).withWork
      { s.work with c := s.work.c + 1 }

/-- `EXTRACT`: the operation a `START` has begun runs to its end (R87, R151, R153). With no operation running nothing
runs (R37, notes/assumptions/8.md). -/
def execExtract (s : State) : Host.Outcome State Fault Refusal := .next (runToEnd extractTick s)

end Sys2Proof.Machine
end

