-- ==== Sys2Proof/Machine/Dispatch.lean ====
section
/-! DEFINITION. The dispatch: one arm per constructor of `Instr`, each one call of that instruction's meaning. -/

namespace Sys2Proof.Machine

def exec (i : Instr) (s : State) : Host.Outcome State Fault Refusal :=
  match i with
  | .lit p => Sys2Proof.Machine.execLit p s
  | .run v len => Sys2Proof.Machine.execRun v len s
  | .extract => Sys2Proof.Machine.execExtract s
  | .pack => Sys2Proof.Machine.execPack s
  | .encode => Sys2Proof.Machine.execEncode s
  | .decode => Sys2Proof.Machine.execDecode s
  | .start => Sys2Proof.Machine.execStart s
  | .clear => Sys2Proof.Machine.execClear s

end Sys2Proof.Machine
end

