-- ==== Sys2Proof/Machine/Sequencer.lean ====
section
/-! DEFINITION. Who moves, and what the move does: the core's turn (spec/10_state.md R13; spec/45_host_operations.md R159),
the host's accesses while the core is idle and while it is busy (R155, R156), the reset input (R187), and the placing
of one instruction where the next step runs it. -/

namespace Sys2Proof.Machine

/-- Run commands one after another, stopping at a stop. -/
def execAll : List Instr → State → Host.Outcome State Fault Refusal
  | [], s      => .next s
  | i :: is, s =>
    match exec i s with
    | .next t    => execAll is t
    | .fault f   => .fault f
    | .refused r => .refused r

/-- One step of the running operation (R159, the step form): a `DECODE` that needs a byte fetches it and executes it as
an instruction; every other step is a step of the operation's own loop. An idle core does nothing (R185), and so does
one whose `OP` selects nothing. -/
def coreTurn (s : State) : Host.Outcome State Fault Refusal :=
  if s.busy then
    match s.operation with
    | none          => .next s
    | some .extract => .next (extractTick s)
    | some .pack    => .next (packTick s)
    | some .encode  => .next (encodeTick s)
    | some .decode  =>
      match s.decPhase with
      | .block     => exec (decodeBlock s.fetchByte).toInstr s.fetched
      | .planeEnd  => .next (decodeTick s)
      | .rowEnd    => .next (decodeTick s)
      | .exhausted => .next (decodeTick s)
  else .next s

/-- The running operation to its end (R159, the atomic form): the instruction `OP` selects is executed. -/
def coreToEnd (s : State) : Host.Outcome State Fault Refusal :=
  if s.busy then
    match s.operation with
    | none   => .next s
    | some o => exec o.toInstr s
  else .next s

/-- The buffer the running operation writes (R45). -/
def State.outputBuffer (s : State) : Option BufName :=
  if s.busy then
    match s.operation with
    | none          => none
    | some .extract => some .mask
    | some .pack    => some .bytes
    | some .encode  => some .bytes
    | some .decode  => some .mask
  else none

/-- A buffer's capacity (R33). -/
def BufName.cap (p : Params) : BufName → Option Nat
  | .pix   => p.pixCap
  | .mask  => p.maskCap
  | .bytes => p.bytesCap

/-- A host access to element `i` of a buffer, if the buffer has that element. -/
def State.ifElement (s : State) (b : BufName) (i : Nat) (t : State) : Host.Outcome State Fault Refusal :=
  if inCap i (b.cap s.params) then .next t else .fault (.noSuchElement b i)

/-- A host write to element `i` of a buffer (R156): the spec gives the host no such move while an operation runs. -/
def State.hostWrite (s : State) (b : BufName) (i : Nat) (t : State) : Host.Outcome State Fault Refusal :=
  if s.busy then .refused (.bufferWriteWhileBusy b) else s.ifElement b i t

/-- A host read of `PIX`, which no operation writes. -/
def State.hostReadPix (s : State) (i : Nat) : State := s.deliver (.pixel (s.pixelAt i))

/-- A host read of `MASK`: a free value while `MASK` is the running operation's output (R156). -/
def State.hostReadMask (s : State) (i : Nat) : State :=
  if s.outputBuffer = some .mask then (s.deliver (.bit (Config.freeBit s.fresh i))).nextFree
  else s.deliver (.bit (s.maskAt i))

/-- A host read of `BYTES`: a free value while `BYTES` is the running operation's output (R156). -/
def State.hostReadBytes (s : State) (i : Nat) : State :=
  if s.outputBuffer = some .bytes then (s.deliver (.byte (Config.freeByte s.fresh i))).nextFree
  else s.deliver (.byte (s.byteAt i))

/-- A host write to a register: `CMD` issues commands (R31), ignored while an operation runs (R155). -/
def hostWriteRegister (k v : Nat) (s : State) : Host.Outcome State Fault Refusal :=
  if Reg.ofNum k = some .cmd then execAll (decodeCmd (BitVec.ofNat 2 v)) s else .next (s.hostWriteReg k v)

/-- What a move does. -/
def Move.run (m : Move) (s : State) : Host.Outcome State Fault Refusal :=
  match m with
  | .writeReg k v   => hostWriteRegister k v s
  | .readReg k      => .next (s.hostReadReg k)
  | .writePix i p   => s.hostWrite .pix i (s.putPixel i p)
  | .readPix i      => s.ifElement .pix i (s.hostReadPix i)
  | .writeMask i b  => s.hostWrite .mask i (s.putBit i b)
  | .readMask i     => s.ifElement .mask i (s.hostReadMask i)
  | .writeBytes i b => s.hostWrite .bytes i (s.putByte i b)
  | .readBytes i    => s.ifElement .bytes i (s.hostReadBytes i)
  | .yield          => coreTurn s
  | .wait           => coreToEnd s
  | .reset          => .next s.resetCore

/-- The next move is taken from the agenda and done; with no move to come the core has its turn, so that a busy core
keeps stepping (R158) and an idle one holds its state (R185). -/
def turn (s : State) : Host.Outcome State Fault Refusal :=
  match s.agenda with
  | []      => coreTurn s
  | m :: ms => m.run { s with agenda := ms }

/-! ### Placing one instruction -/

/-- A `DECODE` is running, its current row incomplete, with this byte at the cursor and no host move pending. -/
def State.placeBlock (s : State) (b : Byte) : State :=
  { s.putByte s.work.bc b with
    status := Status.running
    op := 4#3
    width := max s.width (s.work.buf.length + 1)
    height := max s.height (s.work.r + 1)
    bytesLen := max s.bytesLen (s.work.bc + 1)
    agenda := [] }

/-- An operation is running, the one this value of `OP` selects, and the host waits for its end. -/
def State.placeOp (s : State) (c : BitVec 3) : State :=
  { s with status := Status.running, op := c, agenda := [.wait] }

/-- The host's next move writes this value to `CMD`. -/
def State.placeCmd (s : State) (v : Nat) : State := { s with agenda := [.writeReg 12 v] }

/-- A word of spec/opcode_table.json where the next step runs it. -/
def State.placeWord (s : State) (nbits w : Nat) : State :=
  match tableSpace nbits w with
  | none        => s
  | some .block => s.placeBlock (BitVec.ofNat 8 w)
  | some .op    => s.placeOp (BitVec.ofNat 3 w)
  | some .cmd   => s.placeCmd w

end Sys2Proof.Machine
end

