-- ==== Sys2Proof/Safety.lean ====
section
/-! DEFINITION. What holds of the block in every state a run reaches, and the shape of a `START` the spec accepts: the
terms in which statements speak. -/

namespace Sys2Proof.Machine

/-- Every buffer's contents are in the canonical form. -/
structure State.Canonical (s : State) : Prop where
  pix   : s.pix.wf = true
  mask  : s.mask.wf = true
  bytes : s.bytes.wf = true

/-- The flags and the failure record (R29, R30): a legal combination; `ERRCODE` and `ERRROW` are 0 whenever `ERR` is 0,
and `ERRCODE` is a failure's code whenever it is 1. Idle working registers are at their initial values (R21). -/
structure State.Control (s : State) : Prop where
  status   : Status.legal s.status = true
  noError  : s.err = false → s.errcode = 0#2 ∧ s.errrow = 0
  anError  : s.err = true → s.errcode ≠ 0#2
  idleWork : s.busy = false → s.work = Work.reset

/-- Every listed element lies below the capacity (R33, R44). -/
def Memory.below {α : Type} (m : Memory α) (cap : Option Nat) : Bool := m.cells.all fun c => inCap c.1 cap

/-- The registers hold values of their widths (R22, R32). -/
structure State.Widths (s : State) : Prop where
  width    : s.width < 2 ^ s.params.dimBits
  height   : s.height < 2 ^ s.params.dimBits
  errrow   : s.errrow < 2 ^ s.params.dimBits
  pixLen   : s.pixLen < 2 ^ s.params.lenBits
  maskLen  : s.maskLen < 2 ^ s.params.lenBits
  bytesLen : s.bytesLen < 2 ^ s.params.lenBits
  consumed : s.consumed < 2 ^ s.params.lenBits

/-- The most blocks `ENC` has emitted for a row of width `W` when its cursor is at `x` (R106 to R108). -/
def encodedSoFar (x W : Nat) : Nat := if x < W then x / Config.window else encodedMax W

/-- A bound on the output pointer of a running `PACK` or `ENCODE` (R16, R20). -/
def State.wpBound (s : State) : Nat :=
  match s.operation with
  | some .pack   =>
    if s.work.r < s.height then s.work.r * packedLen s.width + s.work.j else s.height * packedLen s.width
  | some .encode =>
    if s.work.r < s.height then s.work.r * encodedMax s.width + encodedSoFar s.work.x s.width
    else s.height * encodedMax s.width
  | _            => 0

/-- The working registers are in the ranges of R16. Upper ends hold throughout. `wl`, `run` and `d` are 0 from `START` until
first written (notes/assumptions/5.md), so their lower ends hold from then on: `wl` is at least 1 once `ENCODE` has
emitted a block (`wp > 0`), and `run` is at least 1 and at most `d` once a Run has been emitted (`d > 0`). The lower end
`x` of `d` holds where R97 writes `d`, not afterwards: the cursor moves on. -/
structure State.WorkRanges (s : State) : Prop where
  r   : s.work.r ≤ s.height
  x   : s.work.x ≤ s.width
  wl  : s.work.wl ≤ Config.window
  d   : s.work.d ≤ s.width
  run : s.work.run ≤ Config.runMax
  wp  : s.work.wp ≤ s.wpBound
  bc  : s.work.bc ≤ s.bytesLen
  bc0 : s.work.bc0 ≤ s.work.bc
  buf : s.work.buf.length ≤ s.width + 63
  j   : s.work.j ≤ packedLen s.width
  c   : s.work.c ≤ s.width
  wlLow  : s.op = 3#3 → 0 < s.work.wp → 1 ≤ s.work.wl
  runLow : 0 < s.work.d → 1 ≤ s.work.run
  dLow   : s.work.run ≤ s.work.d

/-- Everything lies in its range: the parameters meet their constraints, registers fit their widths, buffer elements lie
below the capacities, and a running operation has passed its checks and keeps its working registers in range. -/
structure State.InRange (s : State) : Prop where
  params   : s.params.wf = true
  widths   : s.Widths
  pix      : s.pix.below s.params.pixCap = true
  mask     : s.mask.below s.params.maskCap = true
  bytes    : s.bytes.below s.params.bytesCap = true
  contract : s.busy = true → s.contractOk = true
  work     : s.busy = true → s.WorkRanges

/-- The operation a `START` has just begun: running, at its first step. -/
structure State.Begun (s : State) : Prop where
  status : s.status = Status.running
  work   : s.work = Work.reset

/-- `n` elements fit a capacity, in the spec's words of R152: not more than the capacity, where there is one. -/
abbrev FitsCap (n : Nat) (cap : Option Nat) : Prop := ∀ c ∈ cap, n ≤ c

/-- The checks K1 to K8 pass, written out from the table of R152: `OP` is 1, 2, 3 or 4, and the lengths and the capacities
agree with `W × H` for that operation. -/
abbrev State.MeetsContract (s : State) : Prop :=
  (s.op = 1#3 ∧ s.pixLen = s.width * s.height ∧ FitsCap s.pixLen s.params.pixCap
      ∧ FitsCap (s.width * s.height) s.params.maskCap)
  ∨ (s.op = 2#3 ∧ s.maskLen = s.width * s.height ∧ FitsCap s.maskLen s.params.maskCap
      ∧ FitsCap (s.height * ((s.width + 7) / 8)) s.params.bytesCap)
  ∨ (s.op = 3#3 ∧ s.maskLen = s.width * s.height ∧ FitsCap s.maskLen s.params.maskCap
      ∧ FitsCap (s.height * ((s.width + 6) / 7)) s.params.bytesCap)
  ∨ (s.op = 4#3 ∧ FitsCap s.bytesLen s.params.bytesCap ∧ FitsCap (s.width * s.height) s.params.maskCap)

end Sys2Proof.Machine
end

