-- ==== Sys2Proof/Certificates/Slice0/Obligations.lean ====
section
/-! DEFINITION. The statements for the provers. Each docstring names the rules it formalises. A conclusion of the form
`{ t with work := s.work, … } = { s with … }` says that `t` differs from `s` in nothing but the fields named, which is the
statement's frame; the working registers hold no value once an operation has ended (R21), so statements about an
ended operation leave them out. -/

open Sys2Proof Sys2Proof.Machine

/-! ### Reset -/

/-- R37, R22 (the column "reset"): read by the host, every register is 0 but `MODE`, which is 1; the core is idle; no
element of a buffer is known. That the working registers are at their initial values is the model's own
(notes/assumptions/5.md). -/
def Obligations.ResetLeavesStatedValues : Prop :=
  (∀ k : Nat, (State.reset.hostReadReg k).lastRead = .reg (if k = 4 then 1 else 0))
  ∧ State.reset.status = 0b000#3
  ∧ (∀ i : Nat, State.reset.pix.read i = none ∧ State.reset.mask.read i = none ∧ State.reset.bytes.read i = none)
  ∧ State.reset.work = Work.reset

/-- The invariants `StepKeepsCanonicalBuffers`, `StepKeepsLegalFlags` and `StepKeepsRanges` keep hold after reset. R37, R29,
R30 give the flags and the registers. The model's own are: the canonical form (notes/assumptions/2.md), the idle working
registers' values (notes/assumptions/5.md; R37 itself says that they hold no value), and that the parameters are the
suggested ones and meet the constraint read from R10 (notes/assumptions/1.md). -/
def Obligations.ResetMeetsInvariants : Prop :=
  State.reset.Canonical ∧ State.reset.Control ∧ State.reset.InRange

/-- R189: a reset during an operation abandons it: "no completion and no raise is recorded, `STATUS` reads idle". The
registers take the values of R37, and no element of any buffer is known afterwards. The last line is the model's choice:
a reset of the core leaves the parameters (notes/assumptions/1.md), the moves to come (notes/assumptions/10.md) and what
the host read last (notes/assumptions/11.md) as they are. -/
def Obligations.ResetInputAbandonsOperation : Prop :=
  ∀ (s : State) (ms : List Move), s.agenda = .reset :: ms →
    ∃ t, step s = .next t ∧ t.status = 0b000#3 ∧ t.errcode = 0#2 ∧ t.errrow = 0 ∧ t.op = 0#3 ∧ t.width = 0
      ∧ t.height = 0 ∧ t.target = 0#24 ∧ t.mode = 1#1 ∧ t.pixLen = 0 ∧ t.maskLen = 0 ∧ t.bytesLen = 0
      ∧ t.consumed = 0
      ∧ (∀ i, t.pix.read i = none ∧ t.mask.read i = none ∧ t.bytes.read i = none)
      ∧ t.params = s.params ∧ t.agenda = ms ∧ t.lastRead = s.lastRead

/-! ### A step runs the decoded instruction -/

/-- R113, R114, R159: where no host move is pending, or the host lets the core take a step (`yield`), a running `DECODE`
that needs a byte and has one runs the block the byte at the cursor decodes to, on the state whose cursor has moved on
by 1 (and whose `yield` is taken off); that block is well formed. -/
def Obligations.StepRunsFetchedBlock : Prop :=
  ∀ (s : State) (ms : List Move), (s.agenda = [] ∧ ms = []) ∨ s.agenda = .yield :: ms →
    s.busy = true → s.op = 4#3 → s.work.r < s.height → s.work.buf.length < s.width → s.work.bc < s.bytesLen →
    step s = exec (decodeBlock (s.byteAt s.work.bc)).toInstr
      { s with work := { s.work with bc := s.work.bc + 1 }, agenda := ms }
    ∧ (decodeBlock (s.byteAt s.work.bc)).toInstr.wf = true

/-- R159 (the step form): where the host lets the core take a step (`yield`), the step is the one the core takes with no
host move pending, and the moves after the `yield` are still to come; it always answers a next state. That the host's moves
stand in the state is the model's form (notes/assumptions/10.md). -/
def Obligations.YieldTakesOneCoreStep : Prop :=
  ∀ (s : State) (ms : List Move), s.agenda = .yield :: ms →
    ∃ t, step { s with agenda := [] } = .next t ∧ step s = .next { t with agenda := ms }

/-- R23, R151, R159 (the atomic form): where the host waits and an operation is running, the step runs the instruction
that the value of `OP` decodes to. -/
def Obligations.StepRunsSelectedOperation : Prop :=
  ∀ (s : State) (ms : List Move) (o : Operation), s.agenda = .wait :: ms → s.busy = true → decodeOp s.op = .ok o →
    step s = exec o.toInstr { s with agenda := ms }

/-- R31: a write to `CMD` runs `CLEAR` where bit 1 is set, then `START` where bit 0 is set, and nothing where neither is;
bits above bit 1 do nothing; it stores nothing, and `CMD` reads as 0. -/
def Obligations.StepIssuesCommands : Prop :=
  ∀ (s : State) (ms : List Move) (v : Nat), s.agenda = .writeReg 12 v :: ms →
    (v % 4 = 0 → step s = .next { s with agenda := ms })
    ∧ (v % 4 = 1 → step s = exec .start { s with agenda := ms })
    ∧ (v % 4 = 2 → step s = exec .clear { s with agenda := ms })
    ∧ (v % 4 = 3 → ∃ t, exec .clear { s with agenda := ms } = .next t ∧ step s = exec .start t)
    ∧ (s.hostReadReg 12).lastRead = .reg 0

/-- R185: "An idle core holds its registers and buffers indefinitely": with no operation running, a step with no host move
pending changes nothing, and one where the host lets the core go on (`yield`) or waits for it (`wait`) changes nothing but
the moves to come, which are the model's own form of the host (notes/assumptions/10.md). -/
def Obligations.IdleCoreHoldsState : Prop :=
  ∀ s : State, s.busy = false →
    (s.agenda = [] → step s = .next s)
    ∧ ∀ ms, s.agenda = .yield :: ms ∨ s.agenda = .wait :: ms → step s = .next { s with agenda := ms }

/-! ### Encodings -/

/-- Words written out from R64, R65, R67, R69 and the vectors of spec/95_test_vectors.md, and the codes of R23 and R31. -/
def Obligations.SpecWordsDecode : Prop :=
  decode .block 0xC4#8 = .ok [.run true 5] ∧ decode .block 0x20#8 = .ok [.lit 0b0100000#7]
  ∧ decode .block 0xFF#8 = .ok [.run true 64] ∧ decode .block 0x80#8 = .ok [.run false 1]
  ∧ decode .block 0x05#8 = .ok [.lit 0b0000101#7] ∧ decode .block 0x82#8 = .ok [.run false 3]
  ∧ decode .op 1#8 = .ok [.extract] ∧ decode .op 2#8 = .ok [.pack] ∧ decode .op 3#8 = .ok [.encode]
  ∧ decode .op 4#8 = .ok [.decode] ∧ decode .op 5#8 = .error (.noOperation 5#3)
  ∧ decode .cmd 1#8 = .ok [.start] ∧ decode .cmd 2#8 = .ok [.clear] ∧ decode .cmd 3#8 = .ok [.clear, .start]

/-- Decoding what the encoder gives for a well-formed instruction gives that instruction, with every operand at every
value. -/
def Obligations.DecodeOfEncode : Prop :=
  ∀ i : Instr, i.wf = true → decode (encode i).1 (encode i).2 = .ok [i]

/-- R70, R71, R80: each of the 256 byte values is one well-formed block, and encoding that block gives the byte back. -/
def Obligations.EveryByteIsOneBlock : Prop :=
  ∀ b : Byte, (decodeBlock b).toInstr.wf = true ∧ encode (decodeBlock b).toInstr = (.block, b)

/-- R65, R66, R68, R69 and R64: bit 7 chooses the format; a Run has value bit 6 and length bits 5..0 plus 1; a Literal has
payload bits 6..0. -/
def Obligations.TopBitChoosesFormat : Prop :=
  ∀ b : Byte, decodeBlock b =
    if b.getLsbD 7 = true then Block.run (b.getLsbD 6) ((b.extractLsb' 0 6).toNat + 1)
    else Block.lit (b.extractLsb' 0 7)

/-! ### The block executions -/

/-- R116: `LIT` appends the seven bits, most significant first, and changes nothing else: no flag, no exception; and that is
what a byte with bit 7 clear does. -/
def Obligations.LitAppendsSevenBits : Prop :=
  (∀ (p : BitVec 7) (s : State), exec (.lit p) s =
    .next { s with work := { s.work with buf := s.work.buf ++ ([p.getLsbD 6, p.getLsbD 5, p.getLsbD 4, p.getLsbD 3,
      p.getLsbD 2, p.getLsbD 1, p.getLsbD 0] : List Bit) } })
  ∧ ∀ (b : Byte) (s : State), b.getLsbD 7 = false → exec (decodeBlock b).toInstr s =
    .next { s with work := { s.work with buf := s.work.buf ++ ([b.getLsbD 6, b.getLsbD 5, b.getLsbD 4, b.getLsbD 3,
      b.getLsbD 2, b.getLsbD 1, b.getLsbD 0] : List Bit) } }

/-- R115: `RUN` appends `len` copies of `v`, all of them even past the row's end, and changes nothing else: no flag, no
exception; and a byte with bit 7 set appends `bits 5..0 + 1` copies of bit 6. -/
def Obligations.RunAppendsCopies : Prop :=
  (∀ (v : Bit) (len : Nat) (s : State), exec (.run v len) s =
    .next { s with work := { s.work with buf := s.work.buf ++ List.replicate len v } })
  ∧ ∀ (b : Byte) (s : State), b.getLsbD 7 = true → exec (decodeBlock b).toInstr s =
    .next { s with work := { s.work with
      buf := s.work.buf ++ List.replicate ((b.extractLsb' 0 6).toNat + 1) (b.getLsbD 6) } }

/-- The frame of `LIT` and `RUN` (R115, R116: "Flags: none. Exceptions: none"): registers, every element of every buffer,
and every working register but `BUF` are as before. -/
def Obligations.BlocksChangeOnlyBuf : Prop :=
  ∀ (i : Instr) (s t : State), ((∃ p, i = .lit p) ∨ (∃ v len, i = .run v len)) → exec i s = .next t →
    { t with work := { t.work with buf := s.work.buf } } = s
    ∧ (∀ a, t.pixelAt a = s.pixelAt a) ∧ (∀ a, t.maskAt a = s.maskAt a) ∧ (∀ a, t.byteAt a = s.byteAt a)

/-! ### START and CLEAR -/

/-- R151, R152, R19, R20, R21: a `START` on an idle core whose checks pass sets `BUSY` alone, clears the failure record,
initialises the working registers (row, column, cursors and pointer 0, `BUF` empty) and changes nothing else. -/
def Obligations.StartBeginsOperation : Prop :=
  ∀ s : State, s.busy = false → s.MeetsContract →
    ∃ t, exec .start s = .next t
      ∧ { t with work := s.work } = { s with status := 0b001#3, errcode := 0#2, errrow := 0 }
      ∧ t.work.r = 0 ∧ t.work.x = 0 ∧ t.work.wp = 0 ∧ t.work.bc = 0 ∧ t.work.bc0 = 0 ∧ t.work.buf = []
      ∧ t.work.j = 0 ∧ t.work.c = 0

/-- R167, R171, R152: a `START` on an idle core with a failing check, an `OP` that selects nothing among them, takes the
contract exception: code 3, row 0, `STATUS` = `1 1 0`; no buffer, length register or `CONSUMED` changes. -/
def Obligations.StartRaisesContract : Prop :=
  ∀ s : State, s.busy = false → ¬ s.MeetsContract →
    ∃ t, exec .start s = .next t
      ∧ { t with work := s.work } = { s with status := 0b110#3, errcode := 3#2, errrow := 0 }

/-- R154: `CLEAR` on an idle core returns `STATUS`, `ERRCODE` and `ERRROW` to 0 and "changes nothing else"; "If
`STATUS.BUSY = 1` it is ignored". -/
def Obligations.ClearResetsOutcomeOnly : Prop :=
  ∀ s : State, exec .clear s =
    .next (if s.busy = true then s else { s with status := 0b000#3, errcode := 0#2, errrow := 0 })

/-- R151: "If `STATUS.BUSY = 1` the command is ignored." -/
def Obligations.StartIgnoredWhileBusy : Prop :=
  ∀ s : State, s.busy = true → exec .start s = .next s

/-- R37: "nothing runs until the host issues `START`": from an idle core a step leads to a running operation only where it
is a write to `CMD` with bit 0 set and the checks of R152 pass. -/
def Obligations.OnlyStartMakesBusy : Prop :=
  ∀ s t : State, s.busy = false → step s = .next t → t.busy = true →
    ∃ v ms, s.agenda = .writeReg 12 v :: ms ∧ v % 2 = 1 ∧ s.MeetsContract

/-! ### EXTRACT -/

/-- R86: a cell is 1 exactly where all three channels are equal. -/
def Obligations.CellMatchesPerChannel : Prop :=
  ∀ p t : Pixel, matchPixel p t = true ↔ p.r = t.r ∧ p.g = t.g ∧ p.b = t.b

/-- R87, R86, R25: `EXTRACT` begun by a `START` completes: cell `r × W + c` of `MASK` is 1 exactly where the pixel's
channels equal the fields [23:16], [15:8], [7:0] of `TARGET`; `MASK_LEN` = `W × H`; `STATUS` = `0 1 0`; everything else is
as before (R45). That elements of `MASK` past the grid are as before is the model's reading of R194, where U8 allows any
value (notes/assumptions/15.md), and for an element nothing has written it rests on notes/assumptions/2.md. -/
def Obligations.ExtractBuildsMask : Prop :=
  ∀ s : State, s.Begun →
    ∃ t, exec .extract s = .next t
      ∧ (∀ r c, r < s.height → c < s.width →
          (t.maskAt (r * s.width + c) = true ↔
            (s.pixelAt (r * s.width + c)).r = s.target.extractLsb' 16 8
            ∧ (s.pixelAt (r * s.width + c)).g = s.target.extractLsb' 8 8
            ∧ (s.pixelAt (r * s.width + c)).b = s.target.extractLsb' 0 8))
      ∧ (∀ a, s.width * s.height ≤ a → t.maskAt a = s.maskAt a)
      ∧ { t with work := s.work, mask := s.mask } = { s with maskLen := s.width * s.height, status := 0b010#3 }

/-- R90: "For two different targets no pixel is 1 in both planes": two `EXTRACT`s of one raster with different targets
never both give a 1. -/
def Obligations.ExtractedPlanesAreDisjoint : Prop :=
  ∀ (s : State) (T : BitVec 24), s.Begun → T ≠ s.target →
    ∃ t u, exec .extract s = .next t ∧ exec .extract { s with target := T } = .next u
      ∧ ∀ r c, r < s.height → c < s.width →
          ¬ (t.maskAt (r * s.width + c) = true ∧ u.maskAt (r * s.width + c) = true)

/-! ### PACK -/

/-- R143: a packed row has `ceil(W / 8)` bytes; position `8j + i` of the row is bit `7 - i` of byte `j`, and bits past the
row are 0; with the rule's three worked examples. -/
def Obligations.PackedRowBits : Prop :=
  (∀ R : Row, (packRow R).length = (R.length + 7) / 8
    ∧ ∀ j i, j < (R.length + 7) / 8 → i < 8 →
        ((packRow R).getD j 0#8).getLsbD (7 - i) = (if 8 * j + i < R.length then R.getD (8 * j + i) false else false))
  ∧ packRow [true, true, true, true, true] = [0xF8#8] ∧ packRow [false, true, false] = [0x40#8]
  ∧ packRow (List.replicate 10 true) = [0xFF#8, 0xC0#8]

/-- R144, R143: `PACK` begun by a `START` completes: byte `r × ceil(W / 8) + j` of `BYTES` holds position `8j + i` of row `r`
in bit `7 - i`, 0 past the row; `BYTES_LEN` = `H × ceil(W / 8)`; `STATUS` = `0 1 0`; everything else is as before (R45).
That bytes past the packed plane are as before is the model's reading of R194, where U8 allows any value
(notes/assumptions/15.md), and for a byte nothing has written it rests on notes/assumptions/2.md. -/
def Obligations.PackWritesPackedPlane : Prop :=
  ∀ s : State, s.Begun →
    ∃ t, exec .pack s = .next t
      ∧ (∀ r j i, r < s.height → j < (s.width + 7) / 8 → i < 8 →
          (t.byteAt (r * ((s.width + 7) / 8) + j)).getLsbD (7 - i) =
            (if 8 * j + i < s.width then s.maskAt (r * s.width + (8 * j + i)) else false))
      ∧ (∀ a, s.height * ((s.width + 7) / 8) ≤ a → t.byteAt a = s.byteAt a)
      ∧ { t with work := s.work, bytes := s.bytes } =
          { s with bytesLen := s.height * ((s.width + 7) / 8), status := 0b010#3 }

/-! ### ENCODE -/

/-- R94 to R99: one step of the row encoder. With `n` the window's length, a window of equal bits gives a Run of the value
at `x`, of the greatest length that is at most 64, at most the distance to the row end, and all equal to the value; the
cursor moves by it. Any other window gives a Literal whose first `n` bits are the window and whose other bits are 0;
the cursor moves to `min(x + 7, W)`. -/
def Obligations.EncoderEmitsRunOrLiteral : Prop :=
  ∀ (R : Row) (x : Nat), x < R.length →
    (((∀ i, i < min 7 (R.length - x) → R.getD (x + i) false = R.getD x false) →
      ∃ run, decodeBlock (encBlock R x).1 = .run (R.getD x false) run ∧ (encBlock R x).2 = x + run
        ∧ 1 ≤ run ∧ run ≤ 64 ∧ x + run ≤ R.length ∧ (∀ i, i < run → R.getD (x + i) false = R.getD x false)
        ∧ (run = 64 ∨ x + run = R.length ∨ R.getD (x + run) false ≠ R.getD x false))
    ∧ ((¬ ∀ i, i < min 7 (R.length - x) → R.getD (x + i) false = R.getD x false) →
      ∃ p, decodeBlock (encBlock R x).1 = .lit p ∧ (encBlock R x).2 = min (x + 7) R.length
        ∧ ∀ i, i < 7 → p.getLsbD (6 - i) = (if i < min 7 (R.length - x) then R.getD (x + i) false else false)))

/-- R94 to R97, R99, and the ranges of R16 where they are written: one emitting step of a running `ENCODE`. `wl` becomes
`min(7, W - x)`, 1 to 7; the cursor grows and stays in the row; `wp` grows by 1. For a uniform window `V` becomes the bit at
`x`, `d` the least position from `x` on that differs from it or the row end, so `x < d ≤ W`, `run` becomes
`min(64, d - x)`, 1 to 64, and the cursor moves by it; for a mixed one the cursor moves to `min(x + 7, W)` and `V`, `d` and
`run` are not written. -/
def Obligations.EncodeStepWritesWork : Prop :=
  ∀ s : State, s.agenda = [] → s.busy = true → s.op = 3#3 → s.work.r < s.height → s.work.x < s.width →
    ∃ t, step s = .next t
      ∧ t.work.wl = min 7 (s.width - s.work.x) ∧ 1 ≤ t.work.wl ∧ t.work.wl ≤ 7
      ∧ s.work.x < t.work.x ∧ t.work.x ≤ s.width ∧ t.work.wp = s.work.wp + 1
      ∧ ((∀ i, i < min 7 (s.width - s.work.x) →
            s.maskAt (s.work.r * s.width + (s.work.x + i)) = s.maskAt (s.work.r * s.width + s.work.x)) →
          t.work.v = s.maskAt (s.work.r * s.width + s.work.x)
          ∧ s.work.x < t.work.d ∧ t.work.d ≤ s.width
          ∧ (∀ j, s.work.x ≤ j → j < t.work.d → s.maskAt (s.work.r * s.width + j) = t.work.v)
          ∧ (t.work.d = s.width ∨ s.maskAt (s.work.r * s.width + t.work.d) ≠ t.work.v)
          ∧ t.work.run = min 64 (t.work.d - s.work.x) ∧ 1 ≤ t.work.run ∧ t.work.run ≤ 64
          ∧ t.work.x = s.work.x + t.work.run)
      ∧ ((¬ ∀ i, i < min 7 (s.width - s.work.x) →
            s.maskAt (s.work.r * s.width + (s.work.x + i)) = s.maskAt (s.work.r * s.width + s.work.x)) →
          t.work.x = min (s.work.x + 7) s.width
          ∧ t.work.v = s.work.v ∧ t.work.d = s.work.d ∧ t.work.run = s.work.run)

/-- R130, R131: `ENCODE` begun by a `START` completes: `BYTES` from index 0 on holds the encoded rows of the grid one after
another, `BYTES_LEN` their number, `STATUS` = `0 1 0`; everything else is as before (R45). That bytes past them are as
before is the model's reading of R194, where U8 allows any value (notes/assumptions/15.md), and for a byte nothing has
written it rests on notes/assumptions/2.md. -/
def Obligations.EncodeWritesEncodedPlane : Prop :=
  ∀ s : State, s.Begun →
    ∃ t, exec .encode s = .next t
      ∧ (∀ a, a < (encPlane s.grid).length → t.byteAt a = (encPlane s.grid).getD a 0#8)
      ∧ (∀ a, (encPlane s.grid).length ≤ a → t.byteAt a = s.byteAt a)
      ∧ { t with work := s.work, bytes := s.bytes } =
          { s with bytesLen := (encPlane s.grid).length, status := 0b010#3 }

/-- R132: after `ENCODE`, `BYTES_LEN` lies between `H × ceil(W / 64)` and `H × ceil(W / 7)`. -/
def Obligations.EncodedPlaneSizeBounds : Prop :=
  ∀ s : State, s.Begun →
    ∃ t, exec .encode s = .next t
      ∧ s.height * ((s.width + 63) / 64) ≤ t.bytesLen ∧ t.bytesLen ≤ s.height * ((s.width + 6) / 7)

/-- R102 and R119: the empty row encodes to no block; a row of width 0 decodes to the empty row from any bytes, none of
them read. -/
def Obligations.EmptyRowNeedsNoBlock : Prop :=
  encRow [] = [] ∧ ∀ B : List Byte, decRow 0 B = some ([], 0)

/-- R108: the block count of a row lies between `ceil(W / 64)` and `ceil(W / 7)`. -/
def Obligations.EncodedRowSizeBounds : Prop :=
  ∀ R : Row, (R.length + 63) / 64 ≤ (encRow R).length ∧ (encRow R).length ≤ (R.length + 6) / 7

/-- R109: "`ENC` never emits `0x00` or `0x7F`", and every other byte is emitted for some row. -/
def Obligations.EncoderNeverEmitsUniformLiteral : Prop :=
  (∀ R : Row, 0x00#8 ∉ encRow R ∧ 0x7F#8 ∉ encRow R)
  ∧ ∀ b : Byte, b ≠ 0x00#8 → b ≠ 0x7F#8 → ∃ R : Row, b ∈ encRow R

/-- R104: of two consecutive Run blocks of one value the first has length 64; and the rule's example, 71 ones. -/
def Obligations.RunsAreMaximal : Prop :=
  (∀ (R : Row) (k : Nat) (a b : Byte) (v : Bit) (n m : Nat), (encRow R)[k]? = some a → (encRow R)[k + 1]? = some b →
    decodeBlock a = .run v n → decodeBlock b = .run v m → n = 64)
  ∧ encRow (List.replicate 71 true) = [0xFF#8, 0xC6#8]

/-- R106: a Run shorter than 7 is the last block of its row. -/
def Obligations.ShortRunEndsRow : Prop :=
  ∀ (R : Row) (k : Nat) (a : Byte) (v : Bit) (n : Nat), (encRow R)[k]? = some a → decodeBlock a = .run v n → n < 7 →
    k + 1 = (encRow R).length

/-! ### DECODE -/

/-- R112, R120, R123: a decoded row has exactly the declared width, and its byte count lies between `ceil(W / 64)` and `W`
and within the stream. -/
def Obligations.DecodedRowHasDeclaredWidth : Prop :=
  ∀ (W : Nat) (B : List Byte) (row : Row) (k : Nat), decRow W B = some (row, k) →
    row.length = W ∧ k ≤ B.length ∧ (W + 63) / 64 ≤ k ∧ k ≤ W

/-- R114, R165: a row decode fails exactly where the blocks of all the bytes left together give fewer bits than the
width. -/
def Obligations.RowDecodeFailsOnlyWhenShort : Prop :=
  ∀ (W : Nat) (B : List Byte), decRow W B = none ↔ (B.flatMap fun b => blockBits (decodeBlock b)).length < W

/-- R124: a row decode reads only the bytes it consumes: any stream that begins with them gives the same row and count. -/
def Obligations.RowDecodeReadsOnlyConsumedBytes : Prop :=
  ∀ (W : Nat) (B : List Byte) (row : Row) (k : Nat), decRow W B = some (row, k) →
    ∀ C : List Byte, decRow W (B.take k ++ C) = some (row, k)

/-- R135, R133, R134: where the plane decode of `BYTES` succeeds, `DECODE` begun by a `START` completes: `MASK` holds the
rows, `MASK_LEN` = `W × H`, `CONSUMED` the bytes used, `STATUS` = `0 1 0`; everything else is as before (R45). That elements
of `MASK` past the grid are as before is the model's reading of R194, where U8 allows any value
(notes/assumptions/15.md), and for an element nothing has written it rests on notes/assumptions/2.md. -/
def Obligations.DecodeRebuildsGrid : Prop :=
  ∀ (s : State) (rows : List Row) (used : Nat), s.Begun →
    decPlane s.stream s.width s.height s.strict = .ok (rows, used) →
    ∃ t, exec .decode s = .next t
      ∧ (∀ r c, r < s.height → c < s.width → t.maskAt (r * s.width + c) = (rows.getD r []).getD c false)
      ∧ (∀ a, s.width * s.height ≤ a → t.maskAt a = s.maskAt a)
      ∧ { t with work := s.work, mask := s.mask } =
          { s with maskLen := s.width * s.height, consumed := used, status := 0b010#3 }

/-- R165, R169, R170, R172: where the stream runs out in row `r`, `DECODE` takes the exception `FORMAT_TRUNCATED`:
`ERRCODE` 1, `ERRROW` `r`, `CONSUMED` = `BYTES_LEN`, `MASK_LEN` 0, `STATUS` = `1 1 0`, no bit of `MASK` known, everything
else as before (`fresh` only numbers the free values). -/
def Obligations.TruncatedStreamRaises : Prop :=
  ∀ (s : State) (r : Nat), s.Begun → decPlane s.stream s.width s.height s.strict = .error (.truncated r) →
    ∃ t, exec .decode s = .next t ∧ (∀ i, t.mask.read i = none)
      ∧ { t with work := s.work, mask := s.mask, fresh := s.fresh } =
          { s with maskLen := 0, consumed := s.bytesLen, errcode := 1#2, errrow := r, status := 0b110#3 }

/-- R134, R166, R169, R170, R172: where bytes remain in strict mode, `DECODE` takes the exception `FORMAT_TRAILING`:
`ERRCODE` 2, `ERRROW` = `HEIGHT`, `CONSUMED` the bytes used, `MASK_LEN` 0, `STATUS` = `1 1 0`, no bit of `MASK` known,
everything else as before. -/
def Obligations.TrailingBytesRaise : Prop :=
  ∀ (s : State) (used : Nat), s.Begun → decPlane s.stream s.width s.height s.strict = .error (.trailing used) →
    s.mode = 1#1 ∧ used < s.bytesLen ∧
    ∃ t, exec .decode s = .next t ∧ (∀ i, t.mask.read i = none)
      ∧ { t with work := s.work, mask := s.mask, fresh := s.fresh } =
          { s with maskLen := 0, consumed := used, errcode := 2#2, errrow := s.height, status := 0b110#3 }

/-- R138, R90, R145: with `W = 0` or `H = 0` every operation writes nothing and its length register becomes 0; `DECODE` in
strict mode raises `FORMAT_TRAILING` exactly where `BYTES_LEN > 0`. -/
def Obligations.DegenerateShapes : Prop :=
  ∀ s : State, s.Begun → (s.width = 0 ∨ s.height = 0) →
    (∃ t, exec .extract s = .next t ∧ t.mask = s.mask ∧ t.maskLen = 0 ∧ t.status = 0b010#3)
    ∧ (∃ t, exec .pack s = .next t ∧ t.bytes = s.bytes ∧ t.bytesLen = 0 ∧ t.status = 0b010#3)
    ∧ (∃ t, exec .encode s = .next t ∧ t.bytes = s.bytes ∧ t.bytesLen = 0 ∧ t.status = 0b010#3)
    ∧ (∃ t, exec .decode s = .next t ∧ t.maskLen = 0 ∧ t.consumed = 0
        ∧ if s.mode = 1#1 ∧ 0 < s.bytesLen then t.status = 0b110#3 ∧ t.errcode = 2#2 ∧ t.errrow = s.height
          else t.status = 0b010#3 ∧ t.mask = s.mask)

/-! ### Round trips -/

/-- R126: decoding an encoded row with its width gives the row and consumes every byte, whatever follows them. -/
def Obligations.RowRoundTrip : Prop :=
  ∀ (R : Row) (rest : List Byte), decRow R.length (encRow R ++ rest) = some (R, (encRow R).length)

/-- R137 as functions: decoding an encoded plane with its width and height gives the rows and consumes every byte, in
either mode. -/
def Obligations.PlaneRoundTrip : Prop :=
  ∀ (rows : List Row) (W : Nat) (strict : Bool), (∀ R ∈ rows, R.length = W) →
    decPlane (encPlane rows) W rows.length strict = .ok (rows, (encPlane rows).length)

/-- R137: "`ENCODE` followed by `DECODE` with the same `WIDTH` and `HEIGHT` and either `STRICT` value reproduces `MASK`
exactly, and `CONSUMED = BYTES_LEN`" (marked derived there). `DECODE` is begun by setting the fields `START` sets. -/
def Obligations.EncodeThenDecodeReproducesMask : Prop :=
  ∀ (s : State) (m : BitVec 1), s.Begun →
    ∃ t u, exec .encode s = .next t
      ∧ exec .decode { t with op := 4#3, mode := m, status := Status.running, work := Work.reset } = .next u
      ∧ (∀ a, a < s.width * s.height → u.maskAt a = s.maskAt a)
      ∧ u.maskLen = s.width * s.height ∧ u.consumed = t.bytesLen ∧ u.status = 0b010#3

/-! ### Every operation -/

/-- R158, R153, R168: from every state every operation ends; one that was running ends in exactly one of two ways, done
(`STATUS` = `0 1 0`) or failed (`1 1 0`), and only `DECODE` can fail, with code 1 or 2. That an execution with none running
answers a next state at all is the model's choice (notes/assumptions/8.md). -/
def Obligations.EveryOperationTerminates : Prop :=
  ∀ (s : State) (o : Operation), ∃ t, exec o.toInstr s = .next t ∧ t.busy = false
    ∧ (s.busy = true → t.status = 0b010#3
        ∨ (o = .decode ∧ t.status = 0b110#3 ∧ (t.errcode = 1#2 ∨ t.errcode = 2#2)))

/-- R159: the step form and the atomic form give the same end state: the machine's own steps, with no host move pending or
with the host letting the core take step after step (`yield`), reach the state the selected operation's execution
gives, and the host's later moves are still to come. -/
def Obligations.StepFormReachesAtomicForm : Prop :=
  ∀ (s : State) (o : Operation), s.busy = true → decodeOp s.op = .ok o →
    ∃ n, (s.agenda = [] → Host.Core.run Sys2Proof.core n s = exec o.toInstr s)
      ∧ ∀ ms, Host.Core.run Sys2Proof.core n { s with agenda := List.replicate n .yield ++ ms } =
          exec o.toInstr { s with agenda := ms }

/-- R34, R45: from every state, an operation's execution changes nothing but its own outputs: its output buffer and length
register, `CONSUMED` for `DECODE`, the flags and the failure record, and the working registers. -/
def Obligations.OperationsWriteOnlyTheirOutputs : Prop :=
  ∀ s t : State,
    (exec .extract s = .next t →
      { t with work := s.work, status := s.status, mask := s.mask, maskLen := s.maskLen } = s)
    ∧ (exec .pack s = .next t →
      { t with work := s.work, status := s.status, bytes := s.bytes, bytesLen := s.bytesLen } = s)
    ∧ (exec .encode s = .next t →
      { t with work := s.work, status := s.status, bytes := s.bytes, bytesLen := s.bytesLen } = s)
    ∧ (exec .decode s = .next t →
      { t with work := s.work, status := s.status, mask := s.mask, maskLen := s.maskLen, consumed := s.consumed,
               errcode := s.errcode, errrow := s.errrow, fresh := s.fresh } = s)

/-- R155 ("a configuration register ... cannot change during the operation"), R34: while an operation runs, no step but a
reset changes a configuration register, the raster or the parameters. -/
def Obligations.BusyStepKeepsConfiguration : Prop :=
  ∀ s t : State, s.busy = true → (∀ ms, s.agenda ≠ .reset :: ms) → step s = .next t →
    t.op = s.op ∧ t.width = s.width ∧ t.height = s.height ∧ t.target = s.target ∧ t.mode = s.mode
      ∧ t.pixLen = s.pixLen ∧ t.pix = s.pix ∧ t.params = s.params

/-- R37: "nothing runs until the host issues `START`": with no operation running, executing an operation changes nothing
(notes/assumptions/8.md). -/
def Obligations.OperationsNeedStart : Prop :=
  ∀ (s : State) (o : Operation), s.busy = false → exec o.toInstr s = .next s

/-! ### The host's accesses -/

/-- R22, R32: a host write to a register it may write stores the value cut to the register's width, in that register alone. -/
def Obligations.IdleWriteStoresCutValue : Prop :=
  ∀ (s : State) (ms : List Move) (k v : Nat), s.agenda = .writeReg k v :: ms → s.busy = false → k ≠ 12 →
    step s = .next
      (match k with
        | 0 => { s with agenda := ms, op := BitVec.ofNat 3 v }
        | 1 => { s with agenda := ms, width := v % 2 ^ s.params.dimBits }
        | 2 => { s with agenda := ms, height := v % 2 ^ s.params.dimBits }
        | 3 => { s with agenda := ms, target := BitVec.ofNat 24 v }
        | 4 => { s with agenda := ms, mode := BitVec.ofNat 1 v }
        | 5 => { s with agenda := ms, pixLen := v % 2 ^ s.params.lenBits }
        | 6 => { s with agenda := ms, maskLen := v % 2 ^ s.params.lenBits }
        | 7 => { s with agenda := ms, bytesLen := v % 2 ^ s.params.lenBits }
        | _ => { s with agenda := ms })

/-- R155: while an operation runs, "a write to any register, `CMD` included, is ignored". -/
def Obligations.BusyWritesAreIgnored : Prop :=
  ∀ (s : State) (ms : List Move) (k v : Nat), s.agenda = .writeReg k v :: ms → s.busy = true →
    step s = .next { s with agenda := ms }

/-- R155, R47, R32: a read of `STATUS` and of a configuration register returns its value at all times, and so does a read
of a result register on an idle core; a read of a register that does not exist returns 0; reading changes no register
and no buffer. -/
def Obligations.ReadsReturnValues : Prop :=
  ∀ (s : State) (ms : List Move) (k : Nat), s.agenda = .readReg k :: ms →
    (s.busy = false ∨ k ≤ 5 ∨ k = 9 ∨ 12 ≤ k) →
    step s = .next (State.deliver { s with agenda := ms }
      (.reg (match k with
        | 0 => s.op.toNat
        | 1 => s.width
        | 2 => s.height
        | 3 => s.target.toNat
        | 4 => s.mode.toNat
        | 5 => s.pixLen
        | 6 => s.maskLen
        | 7 => s.bytesLen
        | 8 => s.consumed
        | 9 => s.status.toNat
        | 10 => s.errcode.toNat
        | 11 => s.errrow
        | _ => 0)))

/-- R155: while an operation runs, a read of `MASK_LEN`, `BYTES_LEN`, `CONSUMED`, `ERRCODE` or `ERRROW` changes no register
and no buffer, and delivers some value of the register's width (a free value). That the unspecified value fits the width
of R22 is read from R32 (notes/assumptions/4.md). -/
def Obligations.BusyResultReadsChangeNothing : Prop :=
  ∀ (s : State) (ms : List Move) (k : Nat), s.agenda = .readReg k :: ms → s.busy = true →
    (k = 6 ∨ k = 7 ∨ k = 8 ∨ k = 10 ∨ k = 11) →
    ∃ t v, step s = .next t ∧ t.lastRead = .reg v
      ∧ v < 2 ^ (if k = 10 then 2 else if k = 11 then s.params.dimBits else s.params.lenBits)
      ∧ { t with lastRead := s.lastRead, fresh := s.fresh } = { s with agenda := ms }

/-- R156, R44: on an idle core a host write to an element below the capacity stores it there and nowhere else. -/
def Obligations.IdleBufferWriteStores : Prop :=
  ∀ (s : State) (ms : List Move) (i : Nat), s.busy = false →
    (∀ p, s.agenda = .writePix i p :: ms → (∀ c ∈ s.params.pixCap, i < c) →
      ∃ t, step s = .next t ∧ t.pixelAt i = p ∧ (∀ a, a ≠ i → t.pixelAt a = s.pixelAt a)
        ∧ { t with pix := s.pix } = { s with agenda := ms })
    ∧ (∀ b, s.agenda = .writeMask i b :: ms → (∀ c ∈ s.params.maskCap, i < c) →
      ∃ t, step s = .next t ∧ t.maskAt i = b ∧ (∀ a, a ≠ i → t.maskAt a = s.maskAt a)
        ∧ { t with mask := s.mask } = { s with agenda := ms })
    ∧ (∀ b, s.agenda = .writeBytes i b :: ms → (∀ c ∈ s.params.bytesCap, i < c) →
      ∃ t, step s = .next t ∧ t.byteAt i = b ∧ (∀ a, a ≠ i → t.byteAt a = s.byteAt a)
        ∧ { t with bytes := s.bytes } = { s with agenda := ms })

/-- R156, U6 and notes/assumptions/7.md: a host write to a buffer while an operation runs is no move the spec gives the host;
the model refuses it by name. -/
def Obligations.BusyBufferWriteIsRefused : Prop :=
  ∀ (s : State) (ms : List Move) (i : Nat), s.busy = true →
    (∀ p, s.agenda = .writePix i p :: ms → step s = .refused (.bufferWriteWhileBusy .pix))
    ∧ (∀ b, s.agenda = .writeMask i b :: ms → step s = .refused (.bufferWriteWhileBusy .mask))
    ∧ (∀ b, s.agenda = .writeBytes i b :: ms → step s = .refused (.bufferWriteWhileBusy .bytes))

/-- R156, R47, R44: a host read of an element below the capacity delivers the element and changes nothing else, but where
the buffer is a running operation's output; there it changes nothing else and delivers some value (a free value). -/
def Obligations.BufferReadsChangeNothing : Prop :=
  ∀ (s : State) (ms : List Move) (i : Nat),
    (s.agenda = .readPix i :: ms → (∀ c ∈ s.params.pixCap, i < c) →
      step s = .next { s with agenda := ms, lastRead := .pixel (s.pixelAt i) })
    ∧ (s.agenda = .readMask i :: ms → (∀ c ∈ s.params.maskCap, i < c) →
      (s.busy = false ∨ s.op = 2#3 ∨ s.op = 3#3 →
        step s = .next { s with agenda := ms, lastRead := .bit (s.maskAt i) })
      ∧ (∃ t b, step s = .next t ∧ t.lastRead = .bit b
          ∧ { t with lastRead := s.lastRead, fresh := s.fresh } = { s with agenda := ms }))
    ∧ (s.agenda = .readBytes i :: ms → (∀ c ∈ s.params.bytesCap, i < c) →
      (s.busy = false ∨ s.op = 1#3 ∨ s.op = 4#3 →
        step s = .next { s with agenda := ms, lastRead := .byte (s.byteAt i) })
      ∧ (∃ t b, step s = .next t ∧ t.lastRead = .byte b
          ∧ { t with lastRead := s.lastRead, fresh := s.fresh } = { s with agenda := ms }))

/-- R33, R53 and notes/assumptions/6.md: a host access to an element at or past the capacity stops with the fault that names
the buffer and the index. -/
def Obligations.AccessPastCapacityFaults : Prop :=
  ∀ (s : State) (ms : List Move) (i c : Nat), c ≤ i →
    (s.agenda = .readPix i :: ms → s.params.pixCap = some c → step s = .fault (.noSuchElement .pix i))
    ∧ (s.agenda = .readMask i :: ms → s.params.maskCap = some c → step s = .fault (.noSuchElement .mask i))
    ∧ (s.agenda = .readBytes i :: ms → s.params.bytesCap = some c → step s = .fault (.noSuchElement .bytes i))
    ∧ (∀ p, s.agenda = .writePix i p :: ms → s.params.pixCap = some c → s.busy = false →
        step s = .fault (.noSuchElement .pix i))
    ∧ (∀ b, s.agenda = .writeMask i b :: ms → s.params.maskCap = some c → s.busy = false →
        step s = .fault (.noSuchElement .mask i))
    ∧ (∀ b, s.agenda = .writeBytes i b :: ms → s.params.bytesCap = some c → s.busy = false →
        step s = .fault (.noSuchElement .bytes i))

/-! ### Invariants -/

/-- Every step keeps every buffer in the canonical form (the model's own form). -/
def Obligations.StepKeepsCanonicalBuffers : Prop :=
  ∀ s t : State, s.Canonical → step s = .next t → t.Canonical

/-- R29, R30: every step keeps the flags a legal combination, and `ERRCODE` and `ERRROW` 0 whenever `STATUS.ERR = 0`. -/
def Obligations.StepKeepsLegalFlags : Prop :=
  ∀ s t : State, s.Control → step s = .next t → t.Control

/-- R16, R17, R18, R44, R82: every step keeps the working registers in their ranges, the registers within their widths and
every written element below its buffer's capacity. Of `wl`, `run` and `d` the upper ends are kept throughout and the
lower ends from the first write on (`State.WorkRanges`), because they are 0 from `START` until then
(notes/assumptions/5.md); where they are written `EncodeStepWritesWork` gives them exactly. The clause on the parameters
rests on notes/assumptions/1.md, the clauses on widths on notes/assumptions/12.md. -/
def Obligations.StepKeepsRanges : Prop :=
  ∀ s t : State, s.InRange → step s = .next t → t.InRange
end

