-- ==== Sys2Proof/Laws/State.lean ====
section
/-! SUPPORT. One lemma per field of `State` per named update, each true by `rfl`: later proofs need not unfold an update. -/

namespace Sys2Proof.Machine

/-! ### `State.withWork` -/

@[simp] theorem State.withWork_params (s : State) (w : Work) : (s.withWork w).params = s.params := rfl
@[simp] theorem State.withWork_op (s : State) (w : Work) : (s.withWork w).op = s.op := rfl
@[simp] theorem State.withWork_width (s : State) (w : Work) : (s.withWork w).width = s.width := rfl
@[simp] theorem State.withWork_height (s : State) (w : Work) : (s.withWork w).height = s.height := rfl
@[simp] theorem State.withWork_target (s : State) (w : Work) : (s.withWork w).target = s.target := rfl
@[simp] theorem State.withWork_mode (s : State) (w : Work) : (s.withWork w).mode = s.mode := rfl
@[simp] theorem State.withWork_pixLen (s : State) (w : Work) : (s.withWork w).pixLen = s.pixLen := rfl
@[simp] theorem State.withWork_maskLen (s : State) (w : Work) : (s.withWork w).maskLen = s.maskLen := rfl
@[simp] theorem State.withWork_bytesLen (s : State) (w : Work) : (s.withWork w).bytesLen = s.bytesLen := rfl
@[simp] theorem State.withWork_consumed (s : State) (w : Work) : (s.withWork w).consumed = s.consumed := rfl
@[simp] theorem State.withWork_status (s : State) (w : Work) : (s.withWork w).status = s.status := rfl
@[simp] theorem State.withWork_errcode (s : State) (w : Work) : (s.withWork w).errcode = s.errcode := rfl
@[simp] theorem State.withWork_errrow (s : State) (w : Work) : (s.withWork w).errrow = s.errrow := rfl
@[simp] theorem State.withWork_pix (s : State) (w : Work) : (s.withWork w).pix = s.pix := rfl
@[simp] theorem State.withWork_mask (s : State) (w : Work) : (s.withWork w).mask = s.mask := rfl
@[simp] theorem State.withWork_bytes (s : State) (w : Work) : (s.withWork w).bytes = s.bytes := rfl
@[simp] theorem State.withWork_work (s : State) (w : Work) : (s.withWork w).work = w := rfl
@[simp] theorem State.withWork_agenda (s : State) (w : Work) : (s.withWork w).agenda = s.agenda := rfl
@[simp] theorem State.withWork_lastRead (s : State) (w : Work) : (s.withWork w).lastRead = s.lastRead := rfl
@[simp] theorem State.withWork_fresh (s : State) (w : Work) : (s.withWork w).fresh = s.fresh := rfl

/-! ### `State.putPixel` -/

@[simp] theorem State.putPixel_params (s : State) (i : Nat) (v : Pixel) : (s.putPixel i v).params = s.params := rfl
@[simp] theorem State.putPixel_op (s : State) (i : Nat) (v : Pixel) : (s.putPixel i v).op = s.op := rfl
@[simp] theorem State.putPixel_width (s : State) (i : Nat) (v : Pixel) : (s.putPixel i v).width = s.width := rfl
@[simp] theorem State.putPixel_height (s : State) (i : Nat) (v : Pixel) : (s.putPixel i v).height = s.height := rfl
@[simp] theorem State.putPixel_target (s : State) (i : Nat) (v : Pixel) : (s.putPixel i v).target = s.target := rfl
@[simp] theorem State.putPixel_mode (s : State) (i : Nat) (v : Pixel) : (s.putPixel i v).mode = s.mode := rfl
@[simp] theorem State.putPixel_pixLen (s : State) (i : Nat) (v : Pixel) : (s.putPixel i v).pixLen = s.pixLen := rfl
@[simp] theorem State.putPixel_maskLen (s : State) (i : Nat) (v : Pixel) : (s.putPixel i v).maskLen = s.maskLen := rfl
@[simp] theorem State.putPixel_bytesLen (s : State) (i : Nat) (v : Pixel) : (s.putPixel i v).bytesLen = s.bytesLen := rfl
@[simp] theorem State.putPixel_consumed (s : State) (i : Nat) (v : Pixel) : (s.putPixel i v).consumed = s.consumed := rfl
@[simp] theorem State.putPixel_status (s : State) (i : Nat) (v : Pixel) : (s.putPixel i v).status = s.status := rfl
@[simp] theorem State.putPixel_errcode (s : State) (i : Nat) (v : Pixel) : (s.putPixel i v).errcode = s.errcode := rfl
@[simp] theorem State.putPixel_errrow (s : State) (i : Nat) (v : Pixel) : (s.putPixel i v).errrow = s.errrow := rfl
@[simp] theorem State.putPixel_pix (s : State) (i : Nat) (v : Pixel) : (s.putPixel i v).pix = s.pix.write i v := rfl
@[simp] theorem State.putPixel_mask (s : State) (i : Nat) (v : Pixel) : (s.putPixel i v).mask = s.mask := rfl
@[simp] theorem State.putPixel_bytes (s : State) (i : Nat) (v : Pixel) : (s.putPixel i v).bytes = s.bytes := rfl
@[simp] theorem State.putPixel_work (s : State) (i : Nat) (v : Pixel) : (s.putPixel i v).work = s.work := rfl
@[simp] theorem State.putPixel_agenda (s : State) (i : Nat) (v : Pixel) : (s.putPixel i v).agenda = s.agenda := rfl
@[simp] theorem State.putPixel_lastRead (s : State) (i : Nat) (v : Pixel) : (s.putPixel i v).lastRead = s.lastRead := rfl
@[simp] theorem State.putPixel_fresh (s : State) (i : Nat) (v : Pixel) : (s.putPixel i v).fresh = s.fresh := rfl

/-! ### `State.putBit` -/

@[simp] theorem State.putBit_params (s : State) (i : Nat) (v : Bit) : (s.putBit i v).params = s.params := rfl
@[simp] theorem State.putBit_op (s : State) (i : Nat) (v : Bit) : (s.putBit i v).op = s.op := rfl
@[simp] theorem State.putBit_width (s : State) (i : Nat) (v : Bit) : (s.putBit i v).width = s.width := rfl
@[simp] theorem State.putBit_height (s : State) (i : Nat) (v : Bit) : (s.putBit i v).height = s.height := rfl
@[simp] theorem State.putBit_target (s : State) (i : Nat) (v : Bit) : (s.putBit i v).target = s.target := rfl
@[simp] theorem State.putBit_mode (s : State) (i : Nat) (v : Bit) : (s.putBit i v).mode = s.mode := rfl
@[simp] theorem State.putBit_pixLen (s : State) (i : Nat) (v : Bit) : (s.putBit i v).pixLen = s.pixLen := rfl
@[simp] theorem State.putBit_maskLen (s : State) (i : Nat) (v : Bit) : (s.putBit i v).maskLen = s.maskLen := rfl
@[simp] theorem State.putBit_bytesLen (s : State) (i : Nat) (v : Bit) : (s.putBit i v).bytesLen = s.bytesLen := rfl
@[simp] theorem State.putBit_consumed (s : State) (i : Nat) (v : Bit) : (s.putBit i v).consumed = s.consumed := rfl
@[simp] theorem State.putBit_status (s : State) (i : Nat) (v : Bit) : (s.putBit i v).status = s.status := rfl
@[simp] theorem State.putBit_errcode (s : State) (i : Nat) (v : Bit) : (s.putBit i v).errcode = s.errcode := rfl
@[simp] theorem State.putBit_errrow (s : State) (i : Nat) (v : Bit) : (s.putBit i v).errrow = s.errrow := rfl
@[simp] theorem State.putBit_pix (s : State) (i : Nat) (v : Bit) : (s.putBit i v).pix = s.pix := rfl
@[simp] theorem State.putBit_mask (s : State) (i : Nat) (v : Bit) : (s.putBit i v).mask = s.mask.write i v := rfl
@[simp] theorem State.putBit_bytes (s : State) (i : Nat) (v : Bit) : (s.putBit i v).bytes = s.bytes := rfl
@[simp] theorem State.putBit_work (s : State) (i : Nat) (v : Bit) : (s.putBit i v).work = s.work := rfl
@[simp] theorem State.putBit_agenda (s : State) (i : Nat) (v : Bit) : (s.putBit i v).agenda = s.agenda := rfl
@[simp] theorem State.putBit_lastRead (s : State) (i : Nat) (v : Bit) : (s.putBit i v).lastRead = s.lastRead := rfl
@[simp] theorem State.putBit_fresh (s : State) (i : Nat) (v : Bit) : (s.putBit i v).fresh = s.fresh := rfl

/-! ### `State.putByte` -/

@[simp] theorem State.putByte_params (s : State) (i : Nat) (v : Byte) : (s.putByte i v).params = s.params := rfl
@[simp] theorem State.putByte_op (s : State) (i : Nat) (v : Byte) : (s.putByte i v).op = s.op := rfl
@[simp] theorem State.putByte_width (s : State) (i : Nat) (v : Byte) : (s.putByte i v).width = s.width := rfl
@[simp] theorem State.putByte_height (s : State) (i : Nat) (v : Byte) : (s.putByte i v).height = s.height := rfl
@[simp] theorem State.putByte_target (s : State) (i : Nat) (v : Byte) : (s.putByte i v).target = s.target := rfl
@[simp] theorem State.putByte_mode (s : State) (i : Nat) (v : Byte) : (s.putByte i v).mode = s.mode := rfl
@[simp] theorem State.putByte_pixLen (s : State) (i : Nat) (v : Byte) : (s.putByte i v).pixLen = s.pixLen := rfl
@[simp] theorem State.putByte_maskLen (s : State) (i : Nat) (v : Byte) : (s.putByte i v).maskLen = s.maskLen := rfl
@[simp] theorem State.putByte_bytesLen (s : State) (i : Nat) (v : Byte) : (s.putByte i v).bytesLen = s.bytesLen := rfl
@[simp] theorem State.putByte_consumed (s : State) (i : Nat) (v : Byte) : (s.putByte i v).consumed = s.consumed := rfl
@[simp] theorem State.putByte_status (s : State) (i : Nat) (v : Byte) : (s.putByte i v).status = s.status := rfl
@[simp] theorem State.putByte_errcode (s : State) (i : Nat) (v : Byte) : (s.putByte i v).errcode = s.errcode := rfl
@[simp] theorem State.putByte_errrow (s : State) (i : Nat) (v : Byte) : (s.putByte i v).errrow = s.errrow := rfl
@[simp] theorem State.putByte_pix (s : State) (i : Nat) (v : Byte) : (s.putByte i v).pix = s.pix := rfl
@[simp] theorem State.putByte_mask (s : State) (i : Nat) (v : Byte) : (s.putByte i v).mask = s.mask := rfl
@[simp] theorem State.putByte_bytes (s : State) (i : Nat) (v : Byte) : (s.putByte i v).bytes = s.bytes.write i v := rfl
@[simp] theorem State.putByte_work (s : State) (i : Nat) (v : Byte) : (s.putByte i v).work = s.work := rfl
@[simp] theorem State.putByte_agenda (s : State) (i : Nat) (v : Byte) : (s.putByte i v).agenda = s.agenda := rfl
@[simp] theorem State.putByte_lastRead (s : State) (i : Nat) (v : Byte) : (s.putByte i v).lastRead = s.lastRead := rfl
@[simp] theorem State.putByte_fresh (s : State) (i : Nat) (v : Byte) : (s.putByte i v).fresh = s.fresh := rfl

/-! ### `State.putRow` -/

@[simp] theorem State.putRow_params (s : State) (i : Nat) (row : Row) : (s.putRow i row).params = s.params := rfl
@[simp] theorem State.putRow_op (s : State) (i : Nat) (row : Row) : (s.putRow i row).op = s.op := rfl
@[simp] theorem State.putRow_width (s : State) (i : Nat) (row : Row) : (s.putRow i row).width = s.width := rfl
@[simp] theorem State.putRow_height (s : State) (i : Nat) (row : Row) : (s.putRow i row).height = s.height := rfl
@[simp] theorem State.putRow_target (s : State) (i : Nat) (row : Row) : (s.putRow i row).target = s.target := rfl
@[simp] theorem State.putRow_mode (s : State) (i : Nat) (row : Row) : (s.putRow i row).mode = s.mode := rfl
@[simp] theorem State.putRow_pixLen (s : State) (i : Nat) (row : Row) : (s.putRow i row).pixLen = s.pixLen := rfl
@[simp] theorem State.putRow_maskLen (s : State) (i : Nat) (row : Row) : (s.putRow i row).maskLen = s.maskLen := rfl
@[simp] theorem State.putRow_bytesLen (s : State) (i : Nat) (row : Row) : (s.putRow i row).bytesLen = s.bytesLen := rfl
@[simp] theorem State.putRow_consumed (s : State) (i : Nat) (row : Row) : (s.putRow i row).consumed = s.consumed := rfl
@[simp] theorem State.putRow_status (s : State) (i : Nat) (row : Row) : (s.putRow i row).status = s.status := rfl
@[simp] theorem State.putRow_errcode (s : State) (i : Nat) (row : Row) : (s.putRow i row).errcode = s.errcode := rfl
@[simp] theorem State.putRow_errrow (s : State) (i : Nat) (row : Row) : (s.putRow i row).errrow = s.errrow := rfl
@[simp] theorem State.putRow_pix (s : State) (i : Nat) (row : Row) : (s.putRow i row).pix = s.pix := rfl
@[simp] theorem State.putRow_mask (s : State) (i : Nat) (row : Row) : (s.putRow i row).mask = s.mask.writeAll i row := rfl
@[simp] theorem State.putRow_bytes (s : State) (i : Nat) (row : Row) : (s.putRow i row).bytes = s.bytes := rfl
@[simp] theorem State.putRow_work (s : State) (i : Nat) (row : Row) : (s.putRow i row).work = s.work := rfl
@[simp] theorem State.putRow_agenda (s : State) (i : Nat) (row : Row) : (s.putRow i row).agenda = s.agenda := rfl
@[simp] theorem State.putRow_lastRead (s : State) (i : Nat) (row : Row) : (s.putRow i row).lastRead = s.lastRead := rfl
@[simp] theorem State.putRow_fresh (s : State) (i : Nat) (row : Row) : (s.putRow i row).fresh = s.fresh := rfl

/-! ### `State.forgetMask` -/

@[simp] theorem State.forgetMask_params (s : State) : (s.forgetMask).params = s.params := rfl
@[simp] theorem State.forgetMask_op (s : State) : (s.forgetMask).op = s.op := rfl
@[simp] theorem State.forgetMask_width (s : State) : (s.forgetMask).width = s.width := rfl
@[simp] theorem State.forgetMask_height (s : State) : (s.forgetMask).height = s.height := rfl
@[simp] theorem State.forgetMask_target (s : State) : (s.forgetMask).target = s.target := rfl
@[simp] theorem State.forgetMask_mode (s : State) : (s.forgetMask).mode = s.mode := rfl
@[simp] theorem State.forgetMask_pixLen (s : State) : (s.forgetMask).pixLen = s.pixLen := rfl
@[simp] theorem State.forgetMask_maskLen (s : State) : (s.forgetMask).maskLen = s.maskLen := rfl
@[simp] theorem State.forgetMask_bytesLen (s : State) : (s.forgetMask).bytesLen = s.bytesLen := rfl
@[simp] theorem State.forgetMask_consumed (s : State) : (s.forgetMask).consumed = s.consumed := rfl
@[simp] theorem State.forgetMask_status (s : State) : (s.forgetMask).status = s.status := rfl
@[simp] theorem State.forgetMask_errcode (s : State) : (s.forgetMask).errcode = s.errcode := rfl
@[simp] theorem State.forgetMask_errrow (s : State) : (s.forgetMask).errrow = s.errrow := rfl
@[simp] theorem State.forgetMask_pix (s : State) : (s.forgetMask).pix = s.pix := rfl
@[simp] theorem State.forgetMask_mask (s : State) : (s.forgetMask).mask = s.mask.forget s.fresh := rfl
@[simp] theorem State.forgetMask_bytes (s : State) : (s.forgetMask).bytes = s.bytes := rfl
@[simp] theorem State.forgetMask_work (s : State) : (s.forgetMask).work = s.work := rfl
@[simp] theorem State.forgetMask_agenda (s : State) : (s.forgetMask).agenda = s.agenda := rfl
@[simp] theorem State.forgetMask_lastRead (s : State) : (s.forgetMask).lastRead = s.lastRead := rfl
@[simp] theorem State.forgetMask_fresh (s : State) : (s.forgetMask).fresh = s.fresh + 1 := rfl

/-! ### `State.finish` -/

@[simp] theorem State.finish_params (s : State) : (s.finish).params = s.params := rfl
@[simp] theorem State.finish_op (s : State) : (s.finish).op = s.op := rfl
@[simp] theorem State.finish_width (s : State) : (s.finish).width = s.width := rfl
@[simp] theorem State.finish_height (s : State) : (s.finish).height = s.height := rfl
@[simp] theorem State.finish_target (s : State) : (s.finish).target = s.target := rfl
@[simp] theorem State.finish_mode (s : State) : (s.finish).mode = s.mode := rfl
@[simp] theorem State.finish_pixLen (s : State) : (s.finish).pixLen = s.pixLen := rfl
@[simp] theorem State.finish_maskLen (s : State) : (s.finish).maskLen = s.maskLen := rfl
@[simp] theorem State.finish_bytesLen (s : State) : (s.finish).bytesLen = s.bytesLen := rfl
@[simp] theorem State.finish_consumed (s : State) : (s.finish).consumed = s.consumed := rfl
@[simp] theorem State.finish_status (s : State) : (s.finish).status = Status.done := rfl
@[simp] theorem State.finish_errcode (s : State) : (s.finish).errcode = s.errcode := rfl
@[simp] theorem State.finish_errrow (s : State) : (s.finish).errrow = s.errrow := rfl
@[simp] theorem State.finish_pix (s : State) : (s.finish).pix = s.pix := rfl
@[simp] theorem State.finish_mask (s : State) : (s.finish).mask = s.mask := rfl
@[simp] theorem State.finish_bytes (s : State) : (s.finish).bytes = s.bytes := rfl
@[simp] theorem State.finish_work (s : State) : (s.finish).work = Work.reset := rfl
@[simp] theorem State.finish_agenda (s : State) : (s.finish).agenda = s.agenda := rfl
@[simp] theorem State.finish_lastRead (s : State) : (s.finish).lastRead = s.lastRead := rfl
@[simp] theorem State.finish_fresh (s : State) : (s.finish).fresh = s.fresh := rfl

/-! ### `State.takeException` -/

@[simp] theorem State.takeException_params (s : State) (code : BitVec 2) (row : Nat) : (s.takeException code row).params = s.params := rfl
@[simp] theorem State.takeException_op (s : State) (code : BitVec 2) (row : Nat) : (s.takeException code row).op = s.op := rfl
@[simp] theorem State.takeException_width (s : State) (code : BitVec 2) (row : Nat) : (s.takeException code row).width = s.width := rfl
@[simp] theorem State.takeException_height (s : State) (code : BitVec 2) (row : Nat) : (s.takeException code row).height = s.height := rfl
@[simp] theorem State.takeException_target (s : State) (code : BitVec 2) (row : Nat) : (s.takeException code row).target = s.target := rfl
@[simp] theorem State.takeException_mode (s : State) (code : BitVec 2) (row : Nat) : (s.takeException code row).mode = s.mode := rfl
@[simp] theorem State.takeException_pixLen (s : State) (code : BitVec 2) (row : Nat) : (s.takeException code row).pixLen = s.pixLen := rfl
@[simp] theorem State.takeException_maskLen (s : State) (code : BitVec 2) (row : Nat) : (s.takeException code row).maskLen = s.maskLen := rfl
@[simp] theorem State.takeException_bytesLen (s : State) (code : BitVec 2) (row : Nat) : (s.takeException code row).bytesLen = s.bytesLen := rfl
@[simp] theorem State.takeException_consumed (s : State) (code : BitVec 2) (row : Nat) : (s.takeException code row).consumed = s.consumed := rfl
@[simp] theorem State.takeException_status (s : State) (code : BitVec 2) (row : Nat) : (s.takeException code row).status = Status.failed := rfl
@[simp] theorem State.takeException_errcode (s : State) (code : BitVec 2) (row : Nat) : (s.takeException code row).errcode = code := rfl
@[simp] theorem State.takeException_errrow (s : State) (code : BitVec 2) (row : Nat) : (s.takeException code row).errrow = row := rfl
@[simp] theorem State.takeException_pix (s : State) (code : BitVec 2) (row : Nat) : (s.takeException code row).pix = s.pix := rfl
@[simp] theorem State.takeException_mask (s : State) (code : BitVec 2) (row : Nat) : (s.takeException code row).mask = s.mask := rfl
@[simp] theorem State.takeException_bytes (s : State) (code : BitVec 2) (row : Nat) : (s.takeException code row).bytes = s.bytes := rfl
@[simp] theorem State.takeException_work (s : State) (code : BitVec 2) (row : Nat) : (s.takeException code row).work = Work.reset := rfl
@[simp] theorem State.takeException_agenda (s : State) (code : BitVec 2) (row : Nat) : (s.takeException code row).agenda = s.agenda := rfl
@[simp] theorem State.takeException_lastRead (s : State) (code : BitVec 2) (row : Nat) : (s.takeException code row).lastRead = s.lastRead := rfl
@[simp] theorem State.takeException_fresh (s : State) (code : BitVec 2) (row : Nat) : (s.takeException code row).fresh = s.fresh := rfl

/-! ### `State.raiseFormat` -/

@[simp] theorem State.raiseFormat_params (s : State) (code : BitVec 2) (row : Nat) : (s.raiseFormat code row).params = s.params := rfl
@[simp] theorem State.raiseFormat_op (s : State) (code : BitVec 2) (row : Nat) : (s.raiseFormat code row).op = s.op := rfl
@[simp] theorem State.raiseFormat_width (s : State) (code : BitVec 2) (row : Nat) : (s.raiseFormat code row).width = s.width := rfl
@[simp] theorem State.raiseFormat_height (s : State) (code : BitVec 2) (row : Nat) : (s.raiseFormat code row).height = s.height := rfl
@[simp] theorem State.raiseFormat_target (s : State) (code : BitVec 2) (row : Nat) : (s.raiseFormat code row).target = s.target := rfl
@[simp] theorem State.raiseFormat_mode (s : State) (code : BitVec 2) (row : Nat) : (s.raiseFormat code row).mode = s.mode := rfl
@[simp] theorem State.raiseFormat_pixLen (s : State) (code : BitVec 2) (row : Nat) : (s.raiseFormat code row).pixLen = s.pixLen := rfl
@[simp] theorem State.raiseFormat_maskLen (s : State) (code : BitVec 2) (row : Nat) : (s.raiseFormat code row).maskLen = 0 := rfl
@[simp] theorem State.raiseFormat_bytesLen (s : State) (code : BitVec 2) (row : Nat) : (s.raiseFormat code row).bytesLen = s.bytesLen := rfl
@[simp] theorem State.raiseFormat_consumed (s : State) (code : BitVec 2) (row : Nat) : (s.raiseFormat code row).consumed = s.work.bc := rfl
@[simp] theorem State.raiseFormat_status (s : State) (code : BitVec 2) (row : Nat) : (s.raiseFormat code row).status = Status.failed := rfl
@[simp] theorem State.raiseFormat_errcode (s : State) (code : BitVec 2) (row : Nat) : (s.raiseFormat code row).errcode = code := rfl
@[simp] theorem State.raiseFormat_errrow (s : State) (code : BitVec 2) (row : Nat) : (s.raiseFormat code row).errrow = row := rfl
@[simp] theorem State.raiseFormat_pix (s : State) (code : BitVec 2) (row : Nat) : (s.raiseFormat code row).pix = s.pix := rfl
@[simp] theorem State.raiseFormat_mask (s : State) (code : BitVec 2) (row : Nat) : (s.raiseFormat code row).mask = s.mask.forget s.fresh := rfl
@[simp] theorem State.raiseFormat_bytes (s : State) (code : BitVec 2) (row : Nat) : (s.raiseFormat code row).bytes = s.bytes := rfl
@[simp] theorem State.raiseFormat_work (s : State) (code : BitVec 2) (row : Nat) : (s.raiseFormat code row).work = Work.reset := rfl
@[simp] theorem State.raiseFormat_agenda (s : State) (code : BitVec 2) (row : Nat) : (s.raiseFormat code row).agenda = s.agenda := rfl
@[simp] theorem State.raiseFormat_lastRead (s : State) (code : BitVec 2) (row : Nat) : (s.raiseFormat code row).lastRead = s.lastRead := rfl
@[simp] theorem State.raiseFormat_fresh (s : State) (code : BitVec 2) (row : Nat) : (s.raiseFormat code row).fresh = s.fresh + 1 := rfl

/-! ### `State.clearOutcome` -/

@[simp] theorem State.clearOutcome_params (s : State) : (s.clearOutcome).params = s.params := rfl
@[simp] theorem State.clearOutcome_op (s : State) : (s.clearOutcome).op = s.op := rfl
@[simp] theorem State.clearOutcome_width (s : State) : (s.clearOutcome).width = s.width := rfl
@[simp] theorem State.clearOutcome_height (s : State) : (s.clearOutcome).height = s.height := rfl
@[simp] theorem State.clearOutcome_target (s : State) : (s.clearOutcome).target = s.target := rfl
@[simp] theorem State.clearOutcome_mode (s : State) : (s.clearOutcome).mode = s.mode := rfl
@[simp] theorem State.clearOutcome_pixLen (s : State) : (s.clearOutcome).pixLen = s.pixLen := rfl
@[simp] theorem State.clearOutcome_maskLen (s : State) : (s.clearOutcome).maskLen = s.maskLen := rfl
@[simp] theorem State.clearOutcome_bytesLen (s : State) : (s.clearOutcome).bytesLen = s.bytesLen := rfl
@[simp] theorem State.clearOutcome_consumed (s : State) : (s.clearOutcome).consumed = s.consumed := rfl
@[simp] theorem State.clearOutcome_status (s : State) : (s.clearOutcome).status = Status.idle := rfl
@[simp] theorem State.clearOutcome_errcode (s : State) : (s.clearOutcome).errcode = 0#2 := rfl
@[simp] theorem State.clearOutcome_errrow (s : State) : (s.clearOutcome).errrow = 0 := rfl
@[simp] theorem State.clearOutcome_pix (s : State) : (s.clearOutcome).pix = s.pix := rfl
@[simp] theorem State.clearOutcome_mask (s : State) : (s.clearOutcome).mask = s.mask := rfl
@[simp] theorem State.clearOutcome_bytes (s : State) : (s.clearOutcome).bytes = s.bytes := rfl
@[simp] theorem State.clearOutcome_work (s : State) : (s.clearOutcome).work = s.work := rfl
@[simp] theorem State.clearOutcome_agenda (s : State) : (s.clearOutcome).agenda = s.agenda := rfl
@[simp] theorem State.clearOutcome_lastRead (s : State) : (s.clearOutcome).lastRead = s.lastRead := rfl
@[simp] theorem State.clearOutcome_fresh (s : State) : (s.clearOutcome).fresh = s.fresh := rfl

/-! ### `State.begin` -/

@[simp] theorem State.begin_params (s : State) : (s.begin).params = s.params := rfl
@[simp] theorem State.begin_op (s : State) : (s.begin).op = s.op := rfl
@[simp] theorem State.begin_width (s : State) : (s.begin).width = s.width := rfl
@[simp] theorem State.begin_height (s : State) : (s.begin).height = s.height := rfl
@[simp] theorem State.begin_target (s : State) : (s.begin).target = s.target := rfl
@[simp] theorem State.begin_mode (s : State) : (s.begin).mode = s.mode := rfl
@[simp] theorem State.begin_pixLen (s : State) : (s.begin).pixLen = s.pixLen := rfl
@[simp] theorem State.begin_maskLen (s : State) : (s.begin).maskLen = s.maskLen := rfl
@[simp] theorem State.begin_bytesLen (s : State) : (s.begin).bytesLen = s.bytesLen := rfl
@[simp] theorem State.begin_consumed (s : State) : (s.begin).consumed = s.consumed := rfl
@[simp] theorem State.begin_status (s : State) : (s.begin).status = Status.running := rfl
@[simp] theorem State.begin_errcode (s : State) : (s.begin).errcode = 0#2 := rfl
@[simp] theorem State.begin_errrow (s : State) : (s.begin).errrow = 0 := rfl
@[simp] theorem State.begin_pix (s : State) : (s.begin).pix = s.pix := rfl
@[simp] theorem State.begin_mask (s : State) : (s.begin).mask = s.mask := rfl
@[simp] theorem State.begin_bytes (s : State) : (s.begin).bytes = s.bytes := rfl
@[simp] theorem State.begin_work (s : State) : (s.begin).work = Work.reset := rfl
@[simp] theorem State.begin_agenda (s : State) : (s.begin).agenda = s.agenda := rfl
@[simp] theorem State.begin_lastRead (s : State) : (s.begin).lastRead = s.lastRead := rfl
@[simp] theorem State.begin_fresh (s : State) : (s.begin).fresh = s.fresh := rfl

/-! ### `State.deliver` -/

@[simp] theorem State.deliver_params (s : State) (d : Datum) : (s.deliver d).params = s.params := rfl
@[simp] theorem State.deliver_op (s : State) (d : Datum) : (s.deliver d).op = s.op := rfl
@[simp] theorem State.deliver_width (s : State) (d : Datum) : (s.deliver d).width = s.width := rfl
@[simp] theorem State.deliver_height (s : State) (d : Datum) : (s.deliver d).height = s.height := rfl
@[simp] theorem State.deliver_target (s : State) (d : Datum) : (s.deliver d).target = s.target := rfl
@[simp] theorem State.deliver_mode (s : State) (d : Datum) : (s.deliver d).mode = s.mode := rfl
@[simp] theorem State.deliver_pixLen (s : State) (d : Datum) : (s.deliver d).pixLen = s.pixLen := rfl
@[simp] theorem State.deliver_maskLen (s : State) (d : Datum) : (s.deliver d).maskLen = s.maskLen := rfl
@[simp] theorem State.deliver_bytesLen (s : State) (d : Datum) : (s.deliver d).bytesLen = s.bytesLen := rfl
@[simp] theorem State.deliver_consumed (s : State) (d : Datum) : (s.deliver d).consumed = s.consumed := rfl
@[simp] theorem State.deliver_status (s : State) (d : Datum) : (s.deliver d).status = s.status := rfl
@[simp] theorem State.deliver_errcode (s : State) (d : Datum) : (s.deliver d).errcode = s.errcode := rfl
@[simp] theorem State.deliver_errrow (s : State) (d : Datum) : (s.deliver d).errrow = s.errrow := rfl
@[simp] theorem State.deliver_pix (s : State) (d : Datum) : (s.deliver d).pix = s.pix := rfl
@[simp] theorem State.deliver_mask (s : State) (d : Datum) : (s.deliver d).mask = s.mask := rfl
@[simp] theorem State.deliver_bytes (s : State) (d : Datum) : (s.deliver d).bytes = s.bytes := rfl
@[simp] theorem State.deliver_work (s : State) (d : Datum) : (s.deliver d).work = s.work := rfl
@[simp] theorem State.deliver_agenda (s : State) (d : Datum) : (s.deliver d).agenda = s.agenda := rfl
@[simp] theorem State.deliver_lastRead (s : State) (d : Datum) : (s.deliver d).lastRead = d := rfl
@[simp] theorem State.deliver_fresh (s : State) (d : Datum) : (s.deliver d).fresh = s.fresh := rfl

/-! ### `State.nextFree` -/

@[simp] theorem State.nextFree_params (s : State) : (s.nextFree).params = s.params := rfl
@[simp] theorem State.nextFree_op (s : State) : (s.nextFree).op = s.op := rfl
@[simp] theorem State.nextFree_width (s : State) : (s.nextFree).width = s.width := rfl
@[simp] theorem State.nextFree_height (s : State) : (s.nextFree).height = s.height := rfl
@[simp] theorem State.nextFree_target (s : State) : (s.nextFree).target = s.target := rfl
@[simp] theorem State.nextFree_mode (s : State) : (s.nextFree).mode = s.mode := rfl
@[simp] theorem State.nextFree_pixLen (s : State) : (s.nextFree).pixLen = s.pixLen := rfl
@[simp] theorem State.nextFree_maskLen (s : State) : (s.nextFree).maskLen = s.maskLen := rfl
@[simp] theorem State.nextFree_bytesLen (s : State) : (s.nextFree).bytesLen = s.bytesLen := rfl
@[simp] theorem State.nextFree_consumed (s : State) : (s.nextFree).consumed = s.consumed := rfl
@[simp] theorem State.nextFree_status (s : State) : (s.nextFree).status = s.status := rfl
@[simp] theorem State.nextFree_errcode (s : State) : (s.nextFree).errcode = s.errcode := rfl
@[simp] theorem State.nextFree_errrow (s : State) : (s.nextFree).errrow = s.errrow := rfl
@[simp] theorem State.nextFree_pix (s : State) : (s.nextFree).pix = s.pix := rfl
@[simp] theorem State.nextFree_mask (s : State) : (s.nextFree).mask = s.mask := rfl
@[simp] theorem State.nextFree_bytes (s : State) : (s.nextFree).bytes = s.bytes := rfl
@[simp] theorem State.nextFree_work (s : State) : (s.nextFree).work = s.work := rfl
@[simp] theorem State.nextFree_agenda (s : State) : (s.nextFree).agenda = s.agenda := rfl
@[simp] theorem State.nextFree_lastRead (s : State) : (s.nextFree).lastRead = s.lastRead := rfl
@[simp] theorem State.nextFree_fresh (s : State) : (s.nextFree).fresh = s.fresh + 1 := rfl

end Sys2Proof.Machine
end

