-- ==== Sys2Proof/Laws/Memory.lean ====
section
/-! SUPPORT. The laws of a buffer: a read after a write to the same index gives the value written, a write leaves every
other index alone, and every operation keeps the canonical form and the bound on listed indices. -/

namespace Sys2Proof.Machine

variable {α : Type}

/-! ### Read after write -/

theorem Memory.lookup_insert (i a : Nat) (v : α) (cs : List (Nat × α)) :
    Memory.lookup a (Memory.insert i v cs) = if a = i then some v else Memory.lookup a cs := by
  induction cs with
  | nil => by_cases h : a = i <;> simp [Memory.insert, Memory.lookup, h, eq_comm (a := i)]
  | cons c cs ih =>
    obtain ⟨k, w⟩ := c
    by_cases h1 : i < k
    · by_cases h : a = i
      · simp [Memory.insert, Memory.lookup, h1, h]
      · simp [Memory.insert, Memory.lookup, h1, h, Ne.symm h]
    · by_cases h2 : i = k
      · subst h2
        by_cases h : a = i
        · simp [Memory.insert, Memory.lookup, h]
        · simp [Memory.insert, Memory.lookup, h, Ne.symm h]
      · by_cases h3 : k = a
        · subst h3
          simp [Memory.insert, Memory.lookup, h1, h2, Ne.symm h2]
        · simp [Memory.insert, Memory.lookup, h1, h2, h3, ih]

/-- What any index reads as after a write. -/
theorem Memory.read_write (m : Memory α) (i a : Nat) (v : α) :
    (m.write i v).read a = if a = i then some v else m.read a :=
  Memory.lookup_insert i a v m.cells

@[simp] theorem Memory.read_write_self (m : Memory α) (i : Nat) (v : α) : (m.write i v).read i = some v := by
  simp [Memory.read_write]

theorem Memory.read_write_of_ne (m : Memory α) {i a : Nat} (v : α) (h : a ≠ i) :
    (m.write i v).read a = m.read a := by
  simp [Memory.read_write, h]

@[simp] theorem Memory.write_epoch (m : Memory α) (i : Nat) (v : α) : (m.write i v).epoch = m.epoch := rfl

@[simp] theorem Memory.writeAll_epoch (vs : List α) (m : Memory α) (i : Nat) :
    (m.writeAll i vs).epoch = m.epoch := by
  induction vs generalizing m i with
  | nil => rfl
  | cons v vs ih => simp [Memory.writeAll, ih]

/-- What any index reads as after a row is stored. -/
theorem Memory.read_writeAll (vs : List α) (m : Memory α) (i a : Nat) :
    (m.writeAll i vs).read a = if i ≤ a ∧ a < i + vs.length then vs[a - i]? else m.read a := by
  induction vs generalizing m i with
  | nil => rw [if_neg (by simp)]; rfl
  | cons v vs ih =>
    simp only [Memory.writeAll, ih, Memory.read_write, List.length_cons]
    by_cases h0 : a = i
    · subst h0; simp
    · by_cases h1 : i + 1 ≤ a ∧ a < i + 1 + vs.length
      · have e : a - i = (a - (i + 1)) + 1 := by omega
        rw [if_pos h1, if_pos (by omega), e, List.getElem?_cons_succ]
      · rw [if_neg h1, if_neg h0, if_neg (by omega)]

@[simp] theorem Memory.read_forget (m : Memory α) (e i : Nat) : (m.forget e).read i = none := rfl

/-! ### The canonical form -/

theorem Memory.rising_mono {lo lo' : Nat} {cs : List (Nat × α)} (h : lo ≤ lo') (hr : Memory.rising lo' cs = true) :
    Memory.rising lo cs = true := by
  cases cs with
  | nil => rfl
  | cons c cs =>
    simp only [Memory.rising, Bool.and_eq_true, decide_eq_true_eq] at hr ⊢
    exact ⟨by omega, hr.2⟩

theorem Memory.rising_insert {lo i : Nat} (v : α) {cs : List (Nat × α)} (hlo : lo ≤ i)
    (hr : Memory.rising lo cs = true) : Memory.rising lo (Memory.insert i v cs) = true := by
  induction cs generalizing lo with
  | nil => simp [Memory.insert, Memory.rising, hlo]
  | cons c cs ih =>
    obtain ⟨k, w⟩ := c
    simp only [Memory.rising, Bool.and_eq_true, decide_eq_true_eq] at hr
    unfold Memory.insert
    split_ifs with h1 h2
    · simp only [Memory.rising, Bool.and_eq_true, decide_eq_true_eq]; exact ⟨hlo, by omega, hr.2⟩
    · subst h2; simp only [Memory.rising, Bool.and_eq_true, decide_eq_true_eq]; exact ⟨hlo, hr.2⟩
    · simp only [Memory.rising, Bool.and_eq_true, decide_eq_true_eq]; exact ⟨hr.1, ih (by omega) hr.2⟩

theorem Memory.wf_write {m : Memory α} (i : Nat) (v : α) (h : m.wf = true) : (m.write i v).wf = true :=
  Memory.rising_insert v (Nat.zero_le i) h

theorem Memory.wf_writeAll (vs : List α) {m : Memory α} (i : Nat) (h : m.wf = true) : (m.writeAll i vs).wf = true := by
  induction vs generalizing m i with
  | nil => exact h
  | cons v vs ih => exact ih (i + 1) (Memory.wf_write i v h)

theorem Memory.wf_forget (m : Memory α) (e : Nat) : (m.forget e).wf = true := rfl

/-! ### The bound on listed indices -/

theorem Memory.below_write {m : Memory α} {cap : Option Nat} {i : Nat} (v : α) (hi : inCap i cap = true)
    (h : m.below cap = true) : (m.write i v).below cap = true := by
  have key : ∀ cs : List (Nat × α), (cs.all fun c => inCap c.1 cap) = true →
      ((Memory.insert i v cs).all fun c => inCap c.1 cap) = true := by
    intro cs
    induction cs with
    | nil => simp [Memory.insert, hi]
    | cons c cs ih =>
      obtain ⟨k, w⟩ := c
      intro h
      simp only [List.all_cons, Bool.and_eq_true] at h
      unfold Memory.insert
      split_ifs with h1 h2
      · simp only [List.all_cons, Bool.and_eq_true]; exact ⟨hi, h⟩
      · simp only [List.all_cons, Bool.and_eq_true]; exact ⟨hi, h.2⟩
      · simp only [List.all_cons, Bool.and_eq_true]; exact ⟨h.1, ih h.2⟩
  exact key m.cells h

theorem Memory.below_writeAll (vs : List α) {m : Memory α} {cap : Option Nat} {i : Nat}
    (hi : ∀ k, k < vs.length → inCap (i + k) cap = true) (h : m.below cap = true) :
    (m.writeAll i vs).below cap = true := by
  induction vs generalizing m i with
  | nil => exact h
  | cons v vs ih =>
    refine ih (fun k hk => ?_) (Memory.below_write v (hi 0 (by simp)) h)
    have := hi (k + 1) (by simp; omega)
    rwa [show i + 1 + k = i + (k + 1) by omega]

theorem Memory.below_forget (m : Memory α) (e : Nat) (cap : Option Nat) : (m.forget e).below cap = true := rfl

/-! ### Elements of the state's buffers -/

theorem State.pixelAt_putPixel (s : State) (i a : Nat) (v : Pixel) :
    (s.putPixel i v).pixelAt a = if a = i then v else s.pixelAt a := by
  by_cases h : a = i <;> simp [State.pixelAt, Memory.read_write, h]

theorem State.maskAt_putBit (s : State) (i a : Nat) (v : Bit) :
    (s.putBit i v).maskAt a = if a = i then v else s.maskAt a := by
  by_cases h : a = i <;> simp [State.maskAt, Memory.read_write, h]

theorem State.byteAt_putByte (s : State) (i a : Nat) (v : Byte) :
    (s.putByte i v).byteAt a = if a = i then v else s.byteAt a := by
  by_cases h : a = i <;> simp [State.byteAt, Memory.read_write, h]

theorem State.maskAt_putRow (s : State) (i a : Nat) (row : Row) :
    (s.putRow i row).maskAt a = if i ≤ a ∧ a < i + row.length then row.getD (a - i) false else s.maskAt a := by
  unfold State.maskAt
  rw [State.putRow_mask, Memory.read_writeAll, Memory.writeAll_epoch]
  split_ifs with h
  · have hlt : a - i < row.length := by omega
    rw [List.getElem?_eq_getElem hlt, List.getD_eq_getElem?_getD, List.getElem?_eq_getElem hlt]
    rfl
  · rfl

/-- An element of `PIX` depends on `PIX` alone; likewise the other buffers. -/
theorem State.pixelAt_congr {s t : State} (h : t.pix = s.pix) (a : Nat) : t.pixelAt a = s.pixelAt a := by
  unfold State.pixelAt; rw [h]

theorem State.maskAt_congr {s t : State} (h : t.mask = s.mask) (a : Nat) : t.maskAt a = s.maskAt a := by
  unfold State.maskAt; rw [h]

theorem State.byteAt_congr {s t : State} (h : t.bytes = s.bytes) (a : Nat) : t.byteAt a = s.byteAt a := by
  unfold State.byteAt; rw [h]

theorem State.row_congr {s t : State} (h : t.mask = s.mask) (hw : t.width = s.width) (r : Nat) :
    t.row r = s.row r := by
  unfold State.row State.index State.maskAt; rw [h, hw]

@[simp] theorem State.row_length (s : State) (r : Nat) : (s.row r).length = s.width := by simp [State.row]

end Sys2Proof.Machine
end

