-- ==== Sys2Proof/Laws/Loop.lean ====
section
/-! SUPPORT. Running an operation to its end: what an invariant of its step gives, and that a step that lowers a measure
ends within the bound. -/

namespace Sys2Proof.Machine

variable {tick : State → State}

theorem runBusy_of_idle (n : Nat) {s : State} (h : s.busy = false) : runBusy tick n s = s := by
  cases n <;> simp [runBusy, h]

theorem runBusy_succ (n : Nat) {s : State} (h : s.busy = true) : runBusy tick (n + 1) s = runBusy tick n (tick s) := by
  simp [runBusy, h]

/-- What every step of a running operation keeps holds at its end. -/
theorem runBusy_keeps {P : State → Prop} (hstep : ∀ s, s.busy = true → P s → P (tick s)) (n : Nat) {s : State}
    (h : P s) : P (runBusy tick n s) := by
  induction n generalizing s with
  | zero => exact h
  | succ n ih =>
    cases hb : s.busy with
    | true => rw [runBusy_succ n hb]; exact ih (hstep s hb h)
    | false => rw [runBusy_of_idle _ hb]; exact h

/-- A measure that every step lowers while the operation goes on bounds the steps. -/
theorem runBusy_ends {μ : State → Nat} (hμ : ∀ s, s.busy = true → (tick s).busy = true → μ (tick s) < μ s) :
    ∀ (n : Nat) (s : State), μ s < n → (runBusy tick n s).busy = false := by
  intro n
  induction n with
  | zero => intro s h; omega
  | succ n ih =>
    intro s h
    cases hb : s.busy with
    | false => rw [runBusy_of_idle _ hb]; exact hb
    | true =>
      rw [runBusy_succ n hb]
      cases ht : (tick s).busy with
      | false => rw [runBusy_of_idle _ ht]; exact ht
      | true => exact ih _ (by have := hμ s hb ht; omega)

/-- A loop law: `P` holds where the operation stands, every step that goes on keeps it, and a step that ends the operation
gives `Q`; then an operation that ends ends in `Q`. -/
theorem runBusy_reaches {P Q : State → Prop}
    (hgo : ∀ s, s.busy = true → P s → (tick s).busy = true → P (tick s))
    (hend : ∀ s, s.busy = true → P s → (tick s).busy = false → Q (tick s)) :
    ∀ (n : Nat) (s : State), s.busy = true → P s → (runBusy tick n s).busy = false → Q (runBusy tick n s) := by
  intro n
  induction n with
  | zero => intro s hb _ he; simp [runBusy, hb] at he
  | succ n ih =>
    intro s hb hp he
    rw [runBusy_succ n hb] at he ⊢
    cases ht : (tick s).busy with
    | false => rw [runBusy_of_idle _ ht]; exact hend s hb hp ht
    | true => exact ih _ ht (hgo s hb hp ht) he

end Sys2Proof.Machine
end

