-- ==== Sys2Proof/Laws/Ticks.lean ====
section
/-! SUPPORT. For each operation's step: everything it can be (one inversion lemma), what it leaves unchanged, and the
measure it lowers. -/

namespace Sys2Proof.Machine

theorem Status.running_busy : Status.running.getLsbD 0 = true := by decide
theorem Status.done_busy : Status.done.getLsbD 0 = false := by decide
theorem Status.failed_busy : Status.failed.getLsbD 0 = false := by decide
theorem Status.idle_busy : Status.idle.getLsbD 0 = false := by decide

@[simp] theorem State.withWork_busy (s : State) (w : Work) : (s.withWork w).busy = s.busy := rfl
@[simp] theorem State.finish_busy (s : State) : s.finish.busy = false := Status.done_busy
@[simp] theorem State.takeException_busy (s : State) (c : BitVec 2) (r : Nat) :
    (s.takeException c r).busy = false := Status.failed_busy
@[simp] theorem State.raiseFormat_busy (s : State) (c : BitVec 2) (r : Nat) : (s.raiseFormat c r).busy = false :=
  Status.failed_busy
@[simp] theorem State.begin_busy (s : State) : s.begin.busy = true := Status.running_busy
@[simp] theorem State.clearOutcome_busy (s : State) : s.clearOutcome.busy = false := Status.idle_busy
@[simp] theorem State.emit_busy (s : State) (b : Byte) (w : Work) : (s.emit b w).busy = s.busy := rfl
@[simp] theorem finishBytes_busy (s : State) : (finishBytes s).busy = false := Status.done_busy
@[simp] theorem finishExtract_busy (s : State) : (finishExtract s).busy = false := Status.done_busy

theorem finishDecode_busy (s : State) : (finishDecode s).busy = false := by
  unfold finishDecode
  split
  · exact Status.failed_busy
  · exact Status.done_busy

/-! ### What a step can be -/

/-- One step of `EXTRACT`: completion, the end of a row, or one cell. -/
theorem extractTick_cases (s : State) :
    (s.height ≤ s.work.r ∧ extractTick s = finishExtract s)
    ∨ (s.work.r < s.height ∧ s.width ≤ s.work.c
        ∧ extractTick s = s.withWork { s.work with r := s.work.r + 1, c := 0 })
    ∨ (s.work.r < s.height ∧ s.work.c < s.width
        ∧ extractTick s = (s.putBit (s.index s.work.r s.work.c)
            (matchPixel (s.pixelAt (s.index s.work.r s.work.c)) s.targetPixel)).withWork
              { s.work with c := s.work.c + 1 }) := by
  unfold extractTick
  split
  · exact .inl ⟨by assumption, rfl⟩
  · split
    · exact .inr (.inl ⟨by omega, by assumption, rfl⟩)
    · exact .inr (.inr ⟨by omega, by omega, rfl⟩)

/-- One step of `PACK`: completion, the end of a row, or one byte. -/
theorem packTick_cases (s : State) :
    (s.height ≤ s.work.r ∧ packTick s = finishBytes s)
    ∨ (s.work.r < s.height ∧ packedLen s.width ≤ s.work.j
        ∧ packTick s = s.withWork { s.work with r := s.work.r + 1, j := 0 })
    ∨ (s.work.r < s.height ∧ s.work.j < packedLen s.width
        ∧ packTick s = s.emit (packByte (s.row s.work.r) s.work.j) { s.work with j := s.work.j + 1 }) := by
  unfold packTick
  split
  · exact .inl ⟨by assumption, rfl⟩
  · split
    · exact .inr (.inl ⟨by omega, by assumption, rfl⟩)
    · exact .inr (.inr ⟨by omega, by omega, rfl⟩)

/-- One step of `ENCODE`: completion, the end of a row, a Run, or a Literal. -/
theorem encodeTick_cases (s : State) :
    (s.height ≤ s.work.r ∧ encodeTick s = finishBytes s)
    ∨ (s.work.r < s.height ∧ s.width ≤ s.work.x
        ∧ encodeTick s = s.withWork { s.work with r := s.work.r + 1, x := 0 })
    ∨ (s.work.r < s.height ∧ s.work.x < s.width ∧ uniformAt (s.row s.work.r) s.work.x = true
        ∧ encodeTick s = emitRun s (s.row s.work.r))
    ∨ (s.work.r < s.height ∧ s.work.x < s.width ∧ uniformAt (s.row s.work.r) s.work.x = false
        ∧ encodeTick s = emitLit s (s.row s.work.r)) := by
  unfold encodeTick
  split
  · exact .inl ⟨by assumption, rfl⟩
  · split
    · exact .inr (.inl ⟨by omega, by assumption, rfl⟩)
    · split
      · exact .inr (.inr (.inl ⟨by omega, by omega, by assumption, rfl⟩))
      · exact .inr (.inr (.inr ⟨by omega, by omega, by simp_all, rfl⟩))

/-- The step of `ENCODE` that emits a block is the row function's: its byte, and its cursor. -/
theorem encodeTick_emits {s : State} (hr : s.work.r < s.height) (hx : s.work.x < s.width) :
    ∃ w, encodeTick s = s.emit (encBlock (s.row s.work.r) s.work.x).1 w
      ∧ w.x = (encBlock (s.row s.work.r) s.work.x).2 ∧ w.r = s.work.r := by
  unfold encodeTick
  rw [if_neg (by omega), if_neg (by omega)]
  unfold encBlock
  split
  · exact ⟨_, rfl, rfl, rfl⟩
  · exact ⟨_, rfl, rfl, rfl⟩

/-- Where a running `DECODE` stands, and its step there: the end check, the end of a row, a raise, or one block. -/
theorem decodeTick_cases (s : State) :
    (s.height ≤ s.work.r ∧ s.decPhase = .planeEnd ∧ decodeTick s = finishDecode s)
    ∨ (s.work.r < s.height ∧ s.width ≤ s.work.buf.length ∧ s.decPhase = .rowEnd ∧ decodeTick s = endRow s)
    ∨ (s.work.r < s.height ∧ s.work.buf.length < s.width ∧ s.bytesLen ≤ s.work.bc ∧ s.decPhase = .exhausted
        ∧ decodeTick s = s.raiseFormat Err.truncated s.work.r)
    ∨ (s.work.r < s.height ∧ s.work.buf.length < s.width ∧ s.work.bc < s.bytesLen ∧ s.decPhase = .block
        ∧ decodeTick s = blockState (decodeBlock s.fetchByte) s.fetched) := by
  unfold decodeTick
  cases h : s.decPhase with
  | planeEnd => unfold State.decPhase at h; split_ifs at h; simp_all
  | rowEnd => unfold State.decPhase at h; split_ifs at h; simp_all
  | exhausted => unfold State.decPhase at h; split_ifs at h; simp_all
  | block => unfold State.decPhase at h; split_ifs at h; simp_all

/-- A block's execution appends its bits to `BUF` and does nothing else. -/
theorem blockState_eq (b : Block) (s : State) : blockState b s = s.appendBits (blockBits b) := by cases b <;> rfl

/-- Executing a decoded block as an instruction. -/
theorem exec_block (b : Block) (s : State) : exec b.toInstr s = .next (s.appendBits (blockBits b)) := by
  cases b <;> rfl

/-! ### What a step leaves unchanged -/

/-- A step of `EXTRACT` changes `MASK`, `MASK_LEN`, `STATUS` and the working registers alone. -/
theorem extractTick_frame (s : State) :
    { extractTick s with work := s.work, status := s.status, mask := s.mask, maskLen := s.maskLen } = s := by
  rcases extractTick_cases s with ⟨_, h⟩ | ⟨_, _, h⟩ | ⟨_, _, h⟩ <;> rw [h] <;> rfl

/-- A step of `PACK` changes `BYTES`, `BYTES_LEN`, `STATUS` and the working registers alone. -/
theorem packTick_frame (s : State) :
    { packTick s with work := s.work, status := s.status, bytes := s.bytes, bytesLen := s.bytesLen } = s := by
  rcases packTick_cases s with ⟨_, h⟩ | ⟨_, _, h⟩ | ⟨_, _, h⟩ <;> rw [h] <;> rfl

/-- A step of `ENCODE` changes `BYTES`, `BYTES_LEN`, `STATUS` and the working registers alone. -/
theorem encodeTick_frame (s : State) :
    { encodeTick s with work := s.work, status := s.status, bytes := s.bytes, bytesLen := s.bytesLen } = s := by
  rcases encodeTick_cases s with ⟨_, h⟩ | ⟨_, _, h⟩ | ⟨_, _, _, h⟩ | ⟨_, _, _, h⟩ <;> rw [h] <;> rfl

/-- A step of `DECODE` changes `MASK`, `MASK_LEN`, `CONSUMED`, `STATUS`, the failure record, the working registers and the
number of the next free value alone. -/
theorem decodeTick_frame (s : State) :
    { decodeTick s with
      work := s.work, status := s.status, mask := s.mask, maskLen := s.maskLen, consumed := s.consumed,
      errcode := s.errcode, errrow := s.errrow, fresh := s.fresh } = s := by
  rcases decodeTick_cases s with ⟨_, _, h⟩ | ⟨_, _, _, h⟩ | ⟨_, _, _, _, h⟩ | ⟨_, _, _, _, h⟩ <;> rw [h]
  · unfold finishDecode; split <;> rfl
  · rfl
  · rfl
  · rw [blockState_eq]; rfl

/-! ### A step that goes on changes only its output buffer and the working registers -/

theorem extractTick_going {s : State} (h : (extractTick s).busy = true) :
    ∃ m w, extractTick s = { s with mask := m, work := w } := by
  rcases extractTick_cases s with ⟨_, e⟩ | ⟨_, _, e⟩ | ⟨_, _, e⟩
  · rw [e] at h; simp at h
  · exact ⟨_, _, e⟩
  · exact ⟨_, _, e⟩

theorem packTick_going {s : State} (h : (packTick s).busy = true) :
    ∃ m w, packTick s = { s with bytes := m, work := w } := by
  rcases packTick_cases s with ⟨_, e⟩ | ⟨_, _, e⟩ | ⟨_, _, e⟩
  · rw [e] at h; simp at h
  · exact ⟨_, _, e⟩
  · exact ⟨_, _, e⟩

theorem encodeTick_going {s : State} (h : (encodeTick s).busy = true) :
    ∃ m w, encodeTick s = { s with bytes := m, work := w } := by
  rcases encodeTick_cases s with ⟨_, e⟩ | ⟨_, _, e⟩ | ⟨_, _, _, e⟩ | ⟨_, _, _, e⟩
  · rw [e] at h; simp at h
  · exact ⟨_, _, e⟩
  · exact ⟨_, _, e⟩
  · exact ⟨_, _, e⟩

theorem decodeTick_going {s : State} (h : (decodeTick s).busy = true) :
    ∃ m w, decodeTick s = { s with mask := m, work := w } := by
  rcases decodeTick_cases s with ⟨_, _, e⟩ | ⟨_, _, _, e⟩ | ⟨_, _, _, _, e⟩ | ⟨_, _, _, _, e⟩
  · rw [e, finishDecode_busy] at h; simp at h
  · exact ⟨_, _, e⟩
  · rw [e] at h; simp at h
  · exact ⟨_, _, e.trans (blockState_eq _ _)⟩

/-! ### The measure a step lowers -/

theorem rowMeasure_next {H r W : Nat} (h : r < H) : (H - (r + 1)) * (W + 1) + W < (H - r) * (W + 1) := by
  obtain ⟨m, rfl⟩ : ∃ m, H = r + 1 + m := ⟨H - (r + 1), by omega⟩
  rw [show r + 1 + m - (r + 1) = m by omega, show r + 1 + m - r = m + 1 by omega, Nat.add_mul]
  omega

/-- A step of `EXTRACT` that goes on comes closer to the end. -/
theorem extractTick_measure {s : State} (h : (extractTick s).busy = true) :
    ((extractTick s).height - (extractTick s).work.r) * ((extractTick s).width + 1)
        + ((extractTick s).width - (extractTick s).work.c)
      < (s.height - s.work.r) * (s.width + 1) + (s.width - s.work.c) := by
  rcases extractTick_cases s with ⟨_, e⟩ | ⟨hr, hc, e⟩ | ⟨hr, hc, e⟩
  · rw [e] at h; simp at h
  · rw [e]
    have := rowMeasure_next (W := s.width) hr
    show (s.height - (s.work.r + 1)) * (s.width + 1) + (s.width - 0) < _
    omega
  · rw [e]
    show (s.height - s.work.r) * (s.width + 1) + (s.width - (s.work.c + 1)) < _
    omega

theorem packedLen_le (W : Nat) : packedLen W ≤ W := by unfold packedLen ceilDiv Config.packBits; omega

theorem encodedMax_le (W : Nat) : encodedMax W ≤ W := by unfold encodedMax ceilDiv Config.window; omega

/-- A step of `PACK` that goes on comes closer to the end. -/
theorem packTick_measure {s : State} (h : (packTick s).busy = true) :
    ((packTick s).height - (packTick s).work.r) * ((packTick s).width + 1)
        + ((packTick s).width - (packTick s).work.j)
      < (s.height - s.work.r) * (s.width + 1) + (s.width - s.work.j) := by
  rcases packTick_cases s with ⟨_, e⟩ | ⟨hr, hc, e⟩ | ⟨hr, hc, e⟩
  · rw [e] at h; simp at h
  · rw [e]
    have := rowMeasure_next (W := s.width) hr
    show (s.height - (s.work.r + 1)) * (s.width + 1) + (s.width - 0) < _
    omega
  · rw [e]
    have := packedLen_le s.width
    show (s.height - s.work.r) * (s.width + 1) + (s.width - (s.work.j + 1)) < _
    omega

/-- A step of `DECODE` that goes on comes closer to the end. -/
theorem decodeTick_measure {s : State} (h : (decodeTick s).busy = true) :
    ((decodeTick s).height - (decodeTick s).work.r) + ((decodeTick s).bytesLen - (decodeTick s).work.bc)
      < (s.height - s.work.r) + (s.bytesLen - s.work.bc) := by
  rcases decodeTick_cases s with ⟨_, _, e⟩ | ⟨hr, _, _, e⟩ | ⟨_, _, _, _, e⟩ | ⟨_, _, hl, _, e⟩
  · rw [e, finishDecode_busy] at h; simp at h
  · rw [e]
    show (s.height - (s.work.r + 1)) + (s.bytesLen - s.work.bc) < _
    omega
  · rw [e] at h; simp at h
  · rw [e, blockState_eq]
    show (s.height - s.work.r) + (s.bytesLen - (s.work.bc + 1)) < _
    omega

end Sys2Proof.Machine
end

