-- ==== Sys2Proof/Laws/Rows.lean ====
section
/-! SUPPORT. The pieces of the row codec: which bit of a byte holds which bit of a row, what the decoder reads from the
encoder's bytes, the window and the run scan. -/

namespace Sys2Proof.Machine

/-! ### Bytes from bits -/

theorem bitByte_getLsbD (b : Bit) (hi k : Nat) (h : hi ≤ 7) :
    ((BitVec.ofBool b).setWidth 8 <<< hi).getLsbD k = (decide (k = hi) && b) := by
  interval_cases hi <;> cases b <;> by_cases hk : k < 8
  all_goals first
    | (interval_cases k <;> decide)
    | (rw [BitVec.getLsbD_of_ge _ _ (by omega)]; simp; try omega)

/-- The bits of a byte filled from bit `hi` downward. -/
theorem msbFirst_getLsbD (bs : List Bit) (hi k : Nat) (h7 : hi ≤ 7) (hl : bs.length ≤ hi + 1) :
    (msbFirst hi bs).getLsbD k = (decide (k ≤ hi) && bs.getD (hi - k) false) := by
  induction bs generalizing hi with
  | nil => simp [msbFirst]
  | cons b bs ih =>
    rw [msbFirst, BitVec.getLsbD_or, bitByte_getLsbD b hi k h7]
    rcases bs with _ | ⟨b', bs⟩
    · by_cases hk : k = hi
      · subst hk; simp [msbFirst]
      · by_cases hk' : k < hi
        · obtain ⟨m, hm⟩ : ∃ m, hi - k = m + 1 := ⟨hi - k - 1, by omega⟩
          simp [msbFirst, hk, hm]
        · have : ¬ k ≤ hi := by omega
          simp [msbFirst, hk, this]
    · simp only [List.length_cons] at hl
      rw [ih (hi - 1) (by omega) (by simp only [List.length_cons]; omega)]
      by_cases hk : k = hi
      · subst hk
        have : ¬ k ≤ k - 1 := by omega
        simp [this]
      · by_cases hk' : k < hi
        · obtain ⟨m, hm⟩ : ∃ m, hi - k = m + 1 := ⟨hi - k - 1, by omega⟩
          have e1 : hi - 1 - k = m := by omega
          have e2 : k ≤ hi - 1 := by omega
          have e3 : k ≤ hi := by omega
          simp [hk, hm, e1, e2, e3]
        · have e2 : ¬ k ≤ hi - 1 := by omega
          have e3 : ¬ k ≤ hi := by omega
          simp [hk, e2, e3]

/-- The decoder reads a Run byte back (R68, R69). -/
theorem decodeBlock_runByte (V : Bit) {run : Nat} (h1 : 1 ≤ run) (h2 : run ≤ 64) :
    decodeBlock (runByte V run) = .run V run := by
  interval_cases run <;> cases V <;> decide

/-- A Literal byte has bit 7 clear (R64). -/
theorem litByte_top {win : List Bit} (h : win.length ≤ 7) : (litByte win).getLsbD 7 = false := by
  rw [litByte, msbFirst_getLsbD win 6 7 (by omega) h]; simp

/-- The decoder reads a Literal byte back: the window's bits in order, then zeros (R67). -/
theorem decodeBlock_litByte {win : List Bit} (h : win.length ≤ 7) :
    decodeBlock (litByte win) = .lit ((litByte win).setWidth 7)
      ∧ ∀ i, i < 7 → ((litByte win).setWidth 7).getLsbD (6 - i) = win.getD i false := by
  refine ⟨by unfold decodeBlock; rw [litByte_top h]; simp, fun i hi => ?_⟩
  rw [BitVec.getLsbD_setWidth, litByte, msbFirst_getLsbD win 6 _ (by omega) h]
  have e1 : 6 - i < 7 := by omega
  have e2 : 6 - i ≤ 6 := by omega
  have e3 : 6 - (6 - i) = i := by omega
  simp [e1, e3]

/-- The seven bits of a payload, by position. -/
theorem litBits_getD (p : BitVec 7) {i : Nat} (h : i < 7) : (litBits p).getD i false = p.getLsbD (6 - i) := by
  interval_cases i <;> rfl

@[simp] theorem litBits_length (p : BitVec 7) : (litBits p).length = 7 := rfl

/-- The bits a Literal byte decodes to: the window, then zeros. -/
theorem litBits_litByte {win : List Bit} (h : win.length ≤ 7) :
    litBits ((litByte win).setWidth 7) = win ++ List.replicate (7 - win.length) false := by
  refine List.ext_getElem? fun i => ?_
  by_cases hi : i < 7
  · have e := litBits_getD ((litByte win).setWidth 7) hi
    rw [(decodeBlock_litByte h).2 i hi, List.getD_eq_getElem?_getD, List.getD_eq_getElem?_getD,
      List.getElem?_eq_getElem (by simpa using hi)] at e
    rw [List.getElem?_eq_getElem (by simpa using hi)]
    simp only [Option.getD_some] at e
    rw [e]
    by_cases hw : i < win.length
    · rw [List.getElem?_append_left hw, List.getElem?_eq_getElem hw]; rfl
    · rw [List.getElem?_append_right (by omega), List.getElem?_replicate, if_pos (by omega),
        List.getElem?_eq_none (by omega)]
      rfl
  · rw [List.getElem?_eq_none (by simpa using hi), List.getElem?_eq_none (by simp; omega)]

/-- Every block appends 1 to 64 bits. -/
theorem blockBits_length (b : Byte) :
    1 ≤ (blockBits (decodeBlock b)).length ∧ (blockBits (decodeBlock b)).length ≤ 64 := by
  unfold decodeBlock
  split
  · simp only [blockBits, List.length_replicate]
    have : (b &&& 0x3F#8).toNat ≤ 63 := by
      rw [BitVec.toNat_and]; exact Nat.and_le_right
    omega
  · simp [blockBits]

/-- Every byte is a well-formed block (R71). -/
theorem decodeBlock_wf (b : Byte) : (decodeBlock b).toInstr.wf = true := by
  have h := blockBits_length b
  cases hb : decodeBlock b with
  | lit p => rfl
  | run v n =>
    rw [hb, blockBits, List.length_replicate] at h
    exact Bool.and_eq_true_iff.mpr ⟨decide_eq_true h.1, decide_eq_true h.2⟩

/-! ### The window and the run scan -/

theorem windowAt_length (R : Row) (x : Nat) :
    (windowAt R x).length = min 7 (R.length - x) := by
  simp [windowAt, windowLen, Config.window]

theorem windowAt_getD (R : Row) (x i : Nat) :
    (windowAt R x).getD i false = if i < windowLen x R.length then bitAt R (x + i) else false := by
  unfold windowAt bitAt
  rw [List.getD_eq_getElem?_getD, List.getElem?_take]
  split_ifs with h
  · rw [List.getElem?_drop, List.getD_eq_getElem?_getD]
  · rfl

/-- The window is uniform where its bits equal the bit at the cursor (R95). -/
theorem uniformAt_iff (R : Row) (x : Nat) :
    uniformAt R x = true ↔ ∀ i, i < min 7 (R.length - x) → bitAt R (x + i) = bitAt R x := by
  unfold uniformAt
  rw [List.all_eq_true]
  constructor
  · intro h i hi
    have hl : i < (windowAt R x).length := by simp [windowAt, windowLen, Config.window]; omega
    have := h _ (List.getElem_mem hl)
    have e := windowAt_getD R x i
    rw [if_pos (by simpa [windowLen, Config.window] using hi), List.getD_eq_getElem?_getD,
      List.getElem?_eq_getElem hl] at e
    rw [← e]; simpa using this
  · intro h b hb
    obtain ⟨i, hl, rfl⟩ := List.mem_iff_getElem.mp hb
    have hi : i < min 7 (R.length - x) := by
      have := hl; simp [windowAt, windowLen, Config.window] at this; omega
    have e := windowAt_getD R x i
    rw [if_pos (by simpa [windowLen, Config.window] using hi), List.getD_eq_getElem?_getD,
      List.getElem?_eq_getElem hl] at e
    have := h i hi
    simp only [Option.getD_some] at e
    rw [e, this]; simp

/-- The run scan (R97): within the row, all bits equal to `V`, and the first bit past it, if in the row, not. -/
theorem runEnd_spec (R : Row) {x : Nat} (V : Bit) (h : x ≤ R.length) :
    x ≤ runEnd R x V ∧ runEnd R x V ≤ R.length
      ∧ (∀ i, x + i < runEnd R x V → bitAt R (x + i) = V)
      ∧ (runEnd R x V < R.length → bitAt R (runEnd R x V) ≠ V) := by
  have key : ∀ L : List Bit, (L.takeWhile fun b => b == V).length ≤ L.length
      ∧ (∀ i, i < (L.takeWhile fun b => b == V).length → L.getD i false = V)
      ∧ ((L.takeWhile fun b => b == V).length < L.length →
          L.getD (L.takeWhile fun b => b == V).length false ≠ V) := by
    intro L
    induction L with
    | nil => simp
    | cons b L ih =>
      by_cases hb : b = V
      · subst hb
        obtain ⟨h1, h2, h3⟩ := ih
        rw [List.takeWhile_cons_of_pos (by simp)]
        refine ⟨by simpa using h1, fun i hi => ?_, fun hlt => ?_⟩
        · cases i with
          | zero => rfl
          | succ i => simpa using h2 i (by simpa using hi)
        · simpa using h3 (by simpa using hlt)
      · rw [List.takeWhile_cons_of_neg (by simpa using hb)]
        refine ⟨by simp, fun i hi => by simp at hi, fun _ => by simpa using hb⟩
  obtain ⟨h1, h2, h3⟩ := key (R.drop x)
  have hd : ∀ i, (R.drop x).getD i false = bitAt R (x + i) := by
    intro i; unfold bitAt; rw [List.getD_eq_getElem?_getD, List.getElem?_drop, List.getD_eq_getElem?_getD]
  simp only [List.length_drop] at h1 h3
  refine ⟨by unfold runEnd; omega, by unfold runEnd; omega, fun i hi => ?_, fun hlt => ?_⟩
  · rw [← hd i]; exact h2 i (by unfold runEnd at hi; omega)
  · unfold runEnd at hlt ⊢; rw [← hd]; exact h3 (by omega)

/-- The Run a uniform window gives covers the window (R106) and at least its first position (R97). -/
theorem runEnd_ge_window {R : Row} {x : Nat} (h : x < R.length) (hu : uniformAt R x = true) :
    x + min 7 (R.length - x) ≤ runEnd R x (bitAt R x) := by
  obtain ⟨h1, h2, h3, h4⟩ := runEnd_spec R (bitAt R x) (Nat.le_of_lt h)
  by_contra hlt
  have := h4 (by omega)
  have hu' := (uniformAt_iff R x).mp hu (runEnd R x (bitAt R x) - x) (by omega)
  rw [show x + (runEnd R x (bitAt R x) - x) = runEnd R x (bitAt R x) by omega] at hu'
  exact this hu'

/-- What one step of the row encoder does: a Run of the value at the cursor, or a Literal of the window. -/
theorem encBlock_cases (R : Row) {x : Nat} (h : x < R.length) :
    (uniformAt R x = true ∧ ∃ run, 1 ≤ run ∧ run ≤ 64 ∧ x + run ≤ R.length ∧ min 7 (R.length - x) ≤ run
        ∧ encBlock R x = (runByte (bitAt R x) run, x + run)
        ∧ (∀ i, i < run → bitAt R (x + i) = bitAt R x)
        ∧ (run = 64 ∨ x + run = R.length ∨ bitAt R (x + run) ≠ bitAt R x))
    ∨ (uniformAt R x = false ∧ encBlock R x = (litByte (windowAt R x), min (x + 7) R.length)) := by
  unfold encBlock
  cases hu : uniformAt R x with
  | false => right; simp [Config.window]
  | true =>
    left
    obtain ⟨h1, h2, h3, h4⟩ := runEnd_spec R (bitAt R x) (Nat.le_of_lt h)
    have h5 := runEnd_ge_window h hu
    refine ⟨rfl, min 64 (runEnd R x (bitAt R x) - x), by omega, by omega, by omega, by omega, rfl, ?_, ?_⟩
    · intro i hi; exact h3 i (by omega)
    · by_cases h6 : 64 ≤ runEnd R x (bitAt R x) - x
      · left; omega
      · right
        have e : x + min 64 (runEnd R x (bitAt R x) - x) = runEnd R x (bitAt R x) := by omega
        rw [e]
        by_cases h7 : runEnd R x (bitAt R x) = R.length
        · left; exact h7
        · right; exact h4 (by omega)

/-- The encoder's cursor grows and stays in the row (R17, R99). -/
theorem encBlock_cursor (R : Row) {x : Nat} (h : x < R.length) :
    x < (encBlock R x).2 ∧ (encBlock R x).2 ≤ R.length := by
  rcases encBlock_cases R h with ⟨_, run, h1, _, h3, _, e, _⟩ | ⟨_, e⟩
  · rw [e]; exact ⟨by simp only; omega, h3⟩
  · rw [e]; exact ⟨by simp only; omega, by simp only; omega⟩

/-- A step of `ENCODE` that goes on comes closer to the end. -/
theorem encodeTick_measure {s : State} (h : (encodeTick s).busy = true) :
    ((encodeTick s).height - (encodeTick s).work.r) * ((encodeTick s).width + 1)
        + ((encodeTick s).width - (encodeTick s).work.x)
      < (s.height - s.work.r) * (s.width + 1) + (s.width - s.work.x) := by
  by_cases hr : s.work.r < s.height
  · by_cases hx : s.work.x < s.width
    · obtain ⟨w, e, hwx, hwr⟩ := encodeTick_emits hr hx
      have hc := encBlock_cursor (s.row s.work.r) (x := s.work.x) (by simpa using hx)
      rw [e]
      show (s.height - w.r) * (s.width + 1) + (s.width - w.x) < _
      rw [hwr, hwx]
      omega
    · rcases encodeTick_cases s with ⟨_, e⟩ | ⟨_, _, e⟩ | ⟨_, h2, _, _⟩ | ⟨_, h2, _, _⟩
      · rw [e] at h; simp at h
      · rw [e]
        have := rowMeasure_next (W := s.width) hr
        show (s.height - (s.work.r + 1)) * (s.width + 1) + (s.width - 0) < _
        omega
      · omega
      · omega
  · rcases encodeTick_cases s with ⟨_, e⟩ | ⟨h2, _, _⟩ | ⟨h2, _, _, _⟩ | ⟨h2, _, _, _⟩
    · rw [e] at h; simp at h
    · omega
    · omega
    · omega

/-! ### Rows, whole -/

@[simp] theorem packRow_length (R : Row) : (packRow R).length = packedLen R.length := by simp [packRow]

/-- Which position of the row is which bit of a packed byte (R77, R143). -/
theorem packByte_getLsbD (R : Row) (j i : Nat) (hi : i < 8) :
    (packByte R j).getLsbD (7 - i) = (if 8 * j + i < R.length then R.getD (8 * j + i) false else false) := by
  unfold packByte
  rw [msbFirst_getLsbD _ 7 _ (by omega) (by simp [Config.packBits])]
  have e : 7 - (7 - i) = i := by omega
  rw [e]
  simp only [show 7 - i ≤ 7 by omega, decide_true, Bool.true_and]
  rw [List.getD_eq_getElem?_getD, List.getElem?_take, List.getElem?_drop, List.getD_eq_getElem?_getD]
  simp only [Config.packBits, hi, if_true]
  split
  · rfl
  · rw [List.getElem?_eq_none (by omega)]; rfl

theorem encFrom_stop (R : Row) (n : Nat) {x : Nat} (h : R.length ≤ x) : encFrom R n x = [] := by
  cases n with
  | zero => rfl
  | succ n => rw [encFrom, if_neg (by omega)]

theorem encFrom_go (R : Row) (n : Nat) {x : Nat} (h : x < R.length) :
    encFrom R (n + 1) x = (encBlock R x).1 :: encFrom R n (encBlock R x).2 := by
  rw [encFrom, if_pos h]

/-- Any bound that covers the rest of the row gives the same bytes. -/
theorem encFrom_bound (R : Row) {n m x : Nat} (hn : R.length - x ≤ n) (hm : R.length - x ≤ m) :
    encFrom R n x = encFrom R m x := by
  induction n generalizing m x with
  | zero => rw [encFrom_stop R m (by omega)]; rfl
  | succ n ih =>
    by_cases hx : x < R.length
    · obtain ⟨m', rfl⟩ : ∃ m', m = m' + 1 := ⟨m - 1, by omega⟩
      have := encBlock_cursor R hx
      rw [encFrom_go R n hx, encFrom_go R m' hx, ih (m := m') (by omega) (by omega)]
    · rw [encFrom_stop R _ (by omega), encFrom_stop R _ (by omega)]

/-- The row up to a Run's end is the row up to its start and the Run's copies. -/
theorem take_append_run (R : Row) {x run : Nat} {V : Bit} (h : x + run ≤ R.length)
    (hv : ∀ i, i < run → bitAt R (x + i) = V) : R.take (x + run) = R.take x ++ List.replicate run V := by
  refine List.ext_getElem? fun i => ?_
  rw [List.getElem?_take]
  by_cases h1 : i < x
  · rw [if_pos (by omega), List.getElem?_append_left (by simp; omega), List.getElem?_take, if_pos h1]
  · rw [List.getElem?_append_right (by simp; omega), List.getElem?_replicate]
    simp only [List.length_take, show min x R.length = x by omega]
    by_cases h2 : i < x + run
    · rw [if_pos h2, if_pos (by omega)]
      have := hv (i - x) (by omega)
      rw [show x + (i - x) = i by omega] at this
      rw [List.getElem?_eq_getElem (by omega)]
      unfold bitAt at this
      rw [List.getD_eq_getElem?_getD, List.getElem?_eq_getElem (by omega)] at this
      simpa using this
    · rw [if_neg h2, if_neg (by omega)]

/-- The row up to a Literal's end is the row up to its start and the window. -/
theorem take_append_window (R : Row) (x : Nat) :
    R.take x ++ windowAt R x = R.take (x + min 7 (R.length - x)) := by
  rw [List.take_add]; rfl

end Sys2Proof.Machine
end

