-- ==== Sys2Proof/Laws/Contract.lean ====
section
/-! SUPPORT. The contract checks in the spec's words, and what each command can do. -/

namespace Sys2Proof.Machine

theorem fits_iff (n : Nat) (cap : Option Nat) : fits n cap = true ↔ FitsCap n cap := by
  cases cap with
  | none => exact ⟨fun _ c hc => by simp at hc, fun _ => rfl⟩
  | some c =>
    unfold fits
    rw [decide_eq_true_eq]
    exact ⟨fun h d hd => by simp at hd; omega, fun h => h c rfl⟩

theorem inCap_iff (i : Nat) (cap : Option Nat) : inCap i cap = true ↔ ∀ c ∈ cap, i < c := by
  cases cap with
  | none => exact ⟨fun _ c hc => by simp at hc, fun _ => rfl⟩
  | some c =>
    unfold inCap
    rw [decide_eq_true_eq]
    exact ⟨fun h d hd => by simp at hd; omega, fun h => h c rfl⟩

/-- The eight values of `OP`. -/
theorem op_values (c : BitVec 3) :
    c = 0#3 ∨ c = 1#3 ∨ c = 2#3 ∨ c = 3#3 ∨ c = 4#3 ∨ c = 5#3 ∨ c = 6#3 ∨ c = 7#3 := by
  revert c; decide

/-- The operation each value of `OP` selects (R23). -/
theorem operation_eq_some (s : State) (o : Operation) :
    s.operation = some o ↔ decodeOp s.op = .ok o := by
  unfold State.operation
  cases decodeOp s.op <;> simp [Except.toOption]

theorem operation_extract (s : State) : s.operation = some .extract ↔ s.op = 1#3 := by
  rw [operation_eq_some]; rcases op_values s.op with h | h | h | h | h | h | h | h <;> rw [h] <;> decide

theorem operation_pack (s : State) : s.operation = some .pack ↔ s.op = 2#3 := by
  rw [operation_eq_some]; rcases op_values s.op with h | h | h | h | h | h | h | h <;> rw [h] <;> decide

theorem operation_encode (s : State) : s.operation = some .encode ↔ s.op = 3#3 := by
  rw [operation_eq_some]; rcases op_values s.op with h | h | h | h | h | h | h | h <;> rw [h] <;> decide

theorem operation_decode (s : State) : s.operation = some .decode ↔ s.op = 4#3 := by
  rw [operation_eq_some]; rcases op_values s.op with h | h | h | h | h | h | h | h <;> rw [h] <;> decide

/-- The checks of `START` pass exactly where the table of R152 says so. -/
theorem contractOk_iff (s : State) : s.contractOk = true ↔ s.MeetsContract := by
  have key : s.contractOk = true ↔
      (s.operation = some .extract ∧ s.extractContract = true) ∨ (s.operation = some .pack ∧ s.packContract = true)
      ∨ (s.operation = some .encode ∧ s.encodeContract = true)
      ∨ (s.operation = some .decode ∧ s.decodeContract = true) := by
    unfold State.contractOk
    cases s.operation with
    | none => simp
    | some o => cases o <;> simp
  rw [key, operation_extract, operation_pack, operation_encode, operation_decode]
  unfold State.extractContract State.packContract State.encodeContract State.decodeContract
  simp only [Bool.and_eq_true, decide_eq_true_eq, fits_iff, and_assoc]
  exact Iff.rfl

theorem begin_contractOk (s : State) : s.begin.contractOk = s.contractOk := rfl

/-- What `START` can do (R151): ignored, accepted, or rejected with the contract exception. -/
theorem startState_cases (s : State) :
    (s.busy = true ∧ startState s = s)
    ∨ (s.busy = false ∧ s.MeetsContract ∧ startState s = s.begin)
    ∨ (s.busy = false ∧ ¬ s.MeetsContract ∧ startState s = s.begin.raiseContract) := by
  rw [← contractOk_iff]
  unfold startState
  rw [begin_contractOk]
  cases hb : s.busy with
  | true => exact .inl ⟨rfl, rfl⟩
  | false =>
    cases hc : s.contractOk with
    | true => exact .inr (.inl ⟨rfl, rfl, rfl⟩)
    | false => exact .inr (.inr ⟨rfl, by simp, rfl⟩)

/-- What `CLEAR` can do (R154). -/
theorem clearState_cases (s : State) :
    (s.busy = true ∧ clearState s = s) ∨ (s.busy = false ∧ clearState s = s.clearOutcome) := by
  unfold clearState
  cases hb : s.busy with
  | true => exact .inl ⟨rfl, rfl⟩
  | false => exact .inr ⟨rfl, rfl⟩

end Sys2Proof.Machine
end

