-- ==== Sys2Proof/Laws/PerInstr.lean ====
section
/-! SUPPORT. Statements about every instruction as syntax, one lemma per constructor. `EncodesTable`: the code the encoder
gives lies in the instruction's row of spec/opcode_table.json. -/

namespace Sys2Proof.Laws.EncodesTable

/-- The columns "space", "mask" and "match" of the instruction's row in spec/opcode_table.json. -/
def row : Instr → Space × Byte × Byte
  | .lit _   => (.block, 0x80#8, 0x00#8)
  | .run _ _ => (.block, 0x80#8, 0x80#8)
  | .extract => (.op, 0x7#8, 0x1#8)
  | .pack    => (.op, 0x7#8, 0x2#8)
  | .encode  => (.op, 0x7#8, 0x3#8)
  | .decode  => (.op, 0x7#8, 0x4#8)
  | .start   => (.cmd, 0x1#8, 0x1#8)
  | .clear   => (.cmd, 0x2#8, 0x2#8)

/-- A well-formed instruction's code is in its row's space and has the row's fixed bits. -/
def Statement (i : Instr) : Prop :=
  i.wf = true → (encode i).1 = (row i).1 ∧ (encode i).2 &&& (row i).2.1 = (row i).2.2

theorem lit (p : BitVec 7) : Statement (.lit p) := fun _ => ⟨rfl, by revert p; decide⟩

theorem run (v : Bit) (len : Nat) : Statement (.run v len) := by
  intro h
  have hlen : 1 ≤ len ∧ len ≤ 64 := by
    have := (Bool.and_eq_true _ _).mp h
    exact ⟨of_decide_eq_true this.1, of_decide_eq_true this.2⟩
  refine ⟨rfl, ?_⟩
  have key : ∀ (v : Bit) (n : Fin 64),
      (0x80#8 ||| ((BitVec.ofBool v).setWidth 8 <<< 6) ||| BitVec.ofNat 8 n.val) &&& 0x80#8 = 0x80#8 := by decide
  exact key v ⟨len - 1, by omega⟩

theorem extract : Statement .extract := fun _ => ⟨rfl, rfl⟩

theorem pack : Statement .pack := fun _ => ⟨rfl, rfl⟩

theorem encode : Statement .encode := fun _ => ⟨rfl, rfl⟩

theorem decode : Statement .decode := fun _ => ⟨rfl, rfl⟩

theorem start : Statement .start := fun _ => ⟨rfl, rfl⟩

theorem clear : Statement .clear := fun _ => ⟨rfl, rfl⟩

end Sys2Proof.Laws.EncodesTable
end

