-- ==== Sys2Proof/Laws/Step.lean ====
section
/-! SUPPORT. One step of the machine: what it is for each agenda, and the induction packaged once: what every operation of
the block and of the host keeps, every step keeps. -/

namespace Sys2Proof.Machine

@[simp] theorem State.agenda_busy (s : State) (ms : List Move) : State.busy { s with agenda := ms } = s.busy := rfl

@[simp] theorem State.agenda_operation (s : State) (ms : List Move) :
    State.operation { s with agenda := ms } = s.operation := rfl

theorem step_of_move {s : State} {m : Move} {ms : List Move} (h : s.agenda = m :: ms) :
    step s = m.run { s with agenda := ms } := by
  unfold step turn; rw [h]

theorem step_of_no_move {s : State} (h : s.agenda = []) : step s = coreTurn s := by
  unfold step turn; rw [h]

/-- The step function of an operation. -/
def opTick : Operation → State → State
  | .extract => extractTick
  | .pack    => packTick
  | .encode  => encodeTick
  | .decode  => decodeTick

/-- Executing an operation runs its step to the end. -/
theorem exec_operation (o : Operation) (s : State) : exec o.toInstr s = .next (runToEnd (opTick o) s) := by cases o <;> rfl

/-- The core's turn while an operation runs is one step of it (R159). -/
theorem coreTurn_operation {s : State} {o : Operation} (hb : s.busy = true) (ho : s.operation = some o) :
    coreTurn s = .next (opTick o s) := by
  cases o with
  | extract => simp [coreTurn, hb, ho, opTick]
  | pack => simp [coreTurn, hb, ho, opTick]
  | encode => simp [coreTurn, hb, ho, opTick]
  | decode =>
    rcases decodeTick_cases s with ⟨_, hp, e⟩ | ⟨_, _, hp, e⟩ | ⟨_, _, _, hp, e⟩ | ⟨_, _, _, hp, e⟩
    · simp [coreTurn, hb, ho, hp, opTick]
    · simp [coreTurn, hb, ho, hp, opTick]
    · simp [coreTurn, hb, ho, hp, opTick]
    · simp only [coreTurn, hb, ho, hp, if_true, opTick, e]
      rw [exec_block, blockState_eq]

/-- The core's turn where there is nothing to run. -/
theorem coreTurn_nothing {s : State} (h : s.busy = false ∨ s.operation = none) : coreTurn s = .next s := by
  unfold coreTurn
  rcases h with h | h
  · simp [h]
  · simp [h]

/-- A step of an operation that goes on leaves `OP` alone. -/
theorem opTick_op (o : Operation) (s : State) : (opTick o s).op = s.op := by
  cases o
  · have h := congrArg State.op (extractTick_frame s); exact h
  · have h := congrArg State.op (packTick_frame s); exact h
  · have h := congrArg State.op (encodeTick_frame s); exact h
  · have h := congrArg State.op (decodeTick_frame s); exact h

theorem opTick_operation (o : Operation) (s : State) : (opTick o s).operation = s.operation := by
  unfold State.operation; rw [opTick_op]

/-- The commands a write to `CMD` can issue (R31). -/
theorem decodeCmd_cases (c : BitVec 2) :
    decodeCmd c = [] ∨ decodeCmd c = [.start] ∨ decodeCmd c = [.clear] ∨ decodeCmd c = [.clear, .start] := by
  revert c; decide

/-- THE INDUCTION OVER A STEP. A property that taking a move off the agenda, every operation's step, the commands, the
host's accesses and the reset keep is kept by every step. -/
theorem step_keeps {P : State → Prop}
    (hagenda : ∀ s ms, P s → P { s with agenda := ms })
    (htick : ∀ s o, P s → s.busy = true → s.operation = some o → P (opTick o s))
    (hstart : ∀ s, P s → P (startState s))
    (hclear : ∀ s, P s → P (clearState s))
    (hwrite : ∀ s k v, P s → P (s.hostWriteReg k v))
    (hdeliver : ∀ s d, P s → P (s.deliver d))
    (hfree : ∀ s, P s → P s.nextFree)
    (hpix : ∀ s i p, P s → s.busy = false → inCap i s.params.pixCap = true → P (s.putPixel i p))
    (hmask : ∀ s i b, P s → s.busy = false → inCap i s.params.maskCap = true → P (s.putBit i b))
    (hbytes : ∀ s i b, P s → s.busy = false → inCap i s.params.bytesCap = true → P (s.putByte i b))
    (hreset : ∀ s, P s → P s.resetCore) :
    ∀ s t, P s → step s = .next t → P t := by
  have hturn : ∀ s t, P s → coreTurn s = .next t → P t := by
    intro s t hp h
    cases hb : s.busy with
    | false => rw [coreTurn_nothing (.inl hb)] at h; cases h; exact hp
    | true =>
      cases ho : s.operation with
      | none => rw [coreTurn_nothing (.inr ho)] at h; cases h; exact hp
      | some o => rw [coreTurn_operation hb ho] at h; cases h; exact htick s o hp hb ho
  have hend : ∀ s t, P s → coreToEnd s = .next t → P t := by
    intro s t hp h
    unfold coreToEnd at h
    cases hb : s.busy with
    | false => rw [hb] at h; cases h; exact hp
    | true =>
      rw [hb, if_pos rfl] at h
      cases ho : s.operation with
      | none => rw [ho] at h; cases h; exact hp
      | some o =>
        rw [ho] at h
        simp only [exec_operation] at h
        cases h
        exact (runBusy_keeps (P := fun u => P u ∧ u.operation = some o)
          (fun u hub hu => ⟨htick u o hu.1 hub hu.2, (opTick_operation o u).trans hu.2⟩) _ ⟨hp, ho⟩).1
  have hcmd : ∀ s c t, P s → execAll (decodeCmd c) s = .next t → P t := by
    intro s c t hp h
    rcases decodeCmd_cases c with e | e | e | e <;> rw [e] at h <;> cases h
    · exact hp
    · exact hstart s hp
    · exact hclear s hp
    · exact hstart _ (hclear s hp)
  have hel : ∀ (s : State) (b : BufName) (i : Nat) (u t : State), s.ifElement b i u = .next t → t = u ∧ inCap i (b.cap s.params) = true := by
    intro s b i u t h
    unfold State.ifElement at h
    split at h
    · cases h; exact ⟨rfl, by assumption⟩
    · cases h
  have hwr : ∀ (s : State) (b : BufName) (i : Nat) (u t : State), s.hostWrite b i u = .next t →
      s.busy = false ∧ t = u ∧ inCap i (b.cap s.params) = true := by
    intro s b i u t h
    unfold State.hostWrite at h
    cases hb : s.busy with
    | true => rw [hb] at h; cases h
    | false => rw [hb] at h; exact ⟨rfl, hel s b i u t h⟩
  intro s t hp h
  cases ha : s.agenda with
  | nil => rw [step_of_no_move ha] at h; exact hturn s t hp h
  | cons m ms =>
    rw [step_of_move ha] at h
    have hp' := hagenda s ms hp
    generalize ({ s with agenda := ms } : State) = u at h hp'
    cases m with
    | writeReg k v =>
      unfold Move.run hostWriteRegister at h
      simp only at h
      split at h
      · exact hcmd u _ t hp' h
      · cases h; exact hwrite u k v hp'
    | readReg k =>
      cases h
      unfold State.hostReadReg
      split
      · exact hdeliver _ _ hp'
      · split
        · exact hfree _ (hdeliver _ _ hp')
        · exact hdeliver _ _ hp'
    | writePix i p => obtain ⟨hb, rfl, hc⟩ := hwr _ _ _ _ _ h; exact hpix u i p hp' hb hc
    | readPix i => obtain ⟨rfl, _⟩ := hel _ _ _ _ _ h; exact hdeliver _ _ hp'
    | writeMask i b => obtain ⟨hb, rfl, hc⟩ := hwr _ _ _ _ _ h; exact hmask u i b hp' hb hc
    | readMask i =>
      obtain ⟨rfl, _⟩ := hel _ _ _ _ _ h
      unfold State.hostReadMask
      split
      · exact hfree _ (hdeliver _ _ hp')
      · exact hdeliver _ _ hp'
    | writeBytes i b => obtain ⟨hb, rfl, hc⟩ := hwr _ _ _ _ _ h; exact hbytes u i b hp' hb hc
    | readBytes i =>
      obtain ⟨rfl, _⟩ := hel _ _ _ _ _ h
      unfold State.hostReadBytes
      split
      · exact hfree _ (hdeliver _ _ hp')
      · exact hdeliver _ _ hp'
    | yield => exact hturn u t hp' h
    | wait => exact hend u t hp' h
    | reset => cases h; exact hreset u hp'

end Sys2Proof.Machine
end

