-- ==== Sys2Proof/Tests/Slice0.lean ====
section
/-! SUPPORT. Tests with results from outside the model (the vectors of spec/95_test_vectors.md and the encodings of
spec/30_encoding.md, written out by hand), and a witness for each statement that has hypotheses: a concrete state and
operands that meet all of them together. -/

namespace Sys2Proof.Tests

open Sys2Proof.Machine

-- Many small evaluations: elaborated one after another, they need less memory.
set_option Elab.async false

/-! ### Small states -/

/-- A buffer holding these elements from index 0 on. -/
def filled {α : Type} (vs : List α) : Memory α := ({ cells := [], epoch := 0 } : Memory α).writeAll 0 vs

/-- The core idle with an operation selected for a grid of `w` columns and `h` rows. -/
def idle (op : BitVec 3) (w h : Nat) : State := { State.reset with op := op, width := w, height := h }

/-- That operation just begun. -/
def begun (op : BitVec 3) (w h : Nat) : State := { idle op w h with status := 0b001#3 }

/-- The state with this raster. -/
def withPix (s : State) (ps : List Pixel) : State := { s with pix := filled ps, pixLen := ps.length }

/-- The state with this grid. -/
def withMask (s : State) (bs : List Bit) : State := { s with mask := filled bs, maskLen := bs.length }

/-- The state with this stream. -/
def withBytes (s : State) (bs : List Byte) : State := { s with bytes := filled bs, bytesLen := bs.length }

/-- The state with these moves to come. -/
def withMoves (s : State) (ms : List Move) : State := { s with agenda := ms }

/-- The state with every capacity `c`. -/
def withCap (s : State) (c : Nat) : State :=
  { s with params := { s.params with pixCap := some c, maskCap := some c, bytesCap := some c } }

/-- A look at the next state, if there is one. -/
def look {α : Type} (f : State → α) : Host.Outcome State Fault Refusal → Option α
  | .next t    => some (f t)
  | .fault _   => none
  | .refused _ => none

/-- The known contents of the first `n` elements of `MASK`. -/
def maskHead (n : Nat) (t : State) : List (Option Bit) := (List.range n).map t.mask.read

/-- The known contents of the first `n` elements of `BYTES`. -/
def bytesHead (n : Nat) (t : State) : List (Option Byte) := (List.range n).map t.bytes.read

/-- `STATUS`, `ERRCODE`, `ERRROW`, `CONSUMED`. -/
def report (t : State) : BitVec 3 × BitVec 2 × Nat × Nat := (t.status, t.errcode, t.errrow, t.consumed)

/-- The grid of vectors P1 and P2. -/
def gridP1 : List Bit :=
  [true, true, true, true, true, true, true, true, true, true]
  ++ [false, false, false, false, true, false, true, false, false, false]
  ++ [false, false, false, false, false, false, false, false, false, false]

/-- The raster of vector X11. -/
def rasterX11 : List Pixel :=
  [⟨0, 0, 0⟩, ⟨255, 0, 0⟩, ⟨255, 255, 255⟩, ⟨255, 0, 0⟩, ⟨0, 0, 0⟩, ⟨0, 0, 0⟩]

/-! ### Well-formed terms (R68: run lengths 1 to 64) -/

theorem test_wf_refuses_run_zero : (Instr.run true 0).wf = false := by decide

theorem test_wf_refuses_run_65 : (Instr.run false 65).wf = false := by decide

theorem test_wf_accepts_run_64 : (Instr.run true 64).wf = true ∧ (Instr.run false 1).wf = true := by decide

/-! ### Decoding: words written out bit by bit from the spec's encodings -/

/-- R64 with vector V2: discriminator 0, then the bits `0 1 0 0 0 0 0`. -/
theorem test_decode_lit : decode .block 0b00100000#8 = .ok [.lit 0b0100000#7] := by decide

/-- R65 with vector V1: discriminator 1, value 1, field 4 for a length of 5. -/
theorem test_decode_run : decode .block 0b11000100#8 = .ok [.run true 5] := by decide

/-- R70: the ends of the three ranges of the opcode map. -/
theorem test_decode_map_ends :
    decode .block 0x7F#8 = .ok [.lit 0b1111111#7] ∧ decode .block 0x80#8 = .ok [.run false 1]
    ∧ decode .block 0xBF#8 = .ok [.run false 64] ∧ decode .block 0xC0#8 = .ok [.run true 1]
    ∧ decode .block 0xFF#8 = .ok [.run true 64] := by decide

/-- R79: the codes of `OP`. -/
theorem test_decode_op :
    decode .op 0b001#8 = .ok [.extract] ∧ decode .op 0b010#8 = .ok [.pack] ∧ decode .op 0b011#8 = .ok [.encode]
    ∧ decode .op 0b100#8 = .ok [.decode] ∧ decode .op 0b000#8 = .error (.noOperation 0#3)
    ∧ decode .op 0b101#8 = .error (.noOperation 5#3) ∧ decode .op 0b110#8 = .error (.noOperation 6#3)
    ∧ decode .op 0b111#8 = .error (.noOperation 7#3) := by decide

/-- R31: the bits of `CMD`. -/
theorem test_decode_cmd :
    decode .cmd 0b01#8 = .ok [.start] ∧ decode .cmd 0b10#8 = .ok [.clear] ∧ decode .cmd 0b11#8 = .ok [.clear, .start]
    ∧ decode .cmd 0b00#8 = .error .noCommand := by decide

/-- The words of spec/opcode_table.json at their widths. -/
theorem test_table_words :
    decodeTableWord 8 0x00 = some (.lit 0#7) ∧ decodeTableWord 8 0x80 = some (.run false 1)
    ∧ decodeTableWord 3 1 = some .extract ∧ decodeTableWord 3 2 = some .pack ∧ decodeTableWord 3 3 = some .encode
    ∧ decodeTableWord 3 4 = some .decode ∧ decodeTableWord 2 1 = some .start ∧ decodeTableWord 2 2 = some .clear
    ∧ decodeTableWord 3 5 = none := by decide

/-- A placed word is what the next step runs, from reset: `RUN 1, 5` appends its bits, `START` with `OP` = 0 raises. -/
theorem test_placed_words_run :
    look (fun t => t.work.buf) (step (State.reset.withFetchWord 8 0xC4)) = some [true, true, true, true, true]
    ∧ look report (step (State.reset.withFetchWord 2 1)) = some (0b110#3, 3#2, 0, 0) := by decide

/-! ### The instructions -/

/-- R116, worked example: `0x20` appends `0,1,0,0,0,0,0`. -/
theorem test_lit : look (fun t => t.work.buf) (exec (.lit 0b0100000#7) (begun 4#3 3 1)) =
    some [false, true, false, false, false, false, false] := by decide

/-- R115, worked example, after bits already there. -/
theorem test_run : look (fun t => t.work.buf)
      (exec (.run true 5) { begun 4#3 9 1 with work := { Work.reset with buf := [false] } }) =
    some [false, true, true, true, true, true] := by decide

/-- Vector X11 with the black target. -/
theorem test_extract_black : look (fun t => (maskHead 6 t, t.maskLen, t.status))
      (exec .extract (withPix (begun 1#3 3 2) rasterX11)) =
    some ([some true, some false, some false, some false, some true, some true], 6, 0b010#3) := by decide +kernel

/-- Vector X11 with the red target. -/
theorem test_extract_red : look (maskHead 6)
      (exec .extract { withPix (begun 1#3 3 2) rasterX11 with target := 0xFF0000#24 }) =
    some [some false, some true, some false, some true, some false, some false] := by decide +kernel

/-- Vector P2. -/
theorem test_pack_P2 : look (fun t => (bytesHead 6 t, t.bytesLen, t.status)) (exec .pack (withMask (begun 2#3 10 3) gridP1)) =
    some ([some 0xFF#8, some 0xC0#8, some 0x0A#8, some 0x00#8, some 0x00#8, some 0x00#8], 6, 0b010#3) := by decide +kernel

/-- Vector P1. -/
theorem test_encode_P1 : look (fun t => (bytesHead 5 t, t.bytesLen, t.status))
      (exec .encode (withMask (begun 3#3 10 3) gridP1)) =
    some ([some 0xC9#8, some 0x05#8, some 0x82#8, some 0x89#8, none], 4, 0b010#3) := by decide +kernel

/-- Vector A34: the cap, then a mixed window, then a run of 1. -/
theorem test_encode_A34 : look (fun t => (bytesHead 3 t, t.bytesLen))
      (exec .encode (withMask (begun 3#3 72 1) (List.replicate 70 true ++ [false, true]))) =
    some ([some 0xFF#8, some 0x7E#8, some 0xC0#8], 3) := by decide +kernel

/-- Vector P7: overshoot is not carried into the next row. -/
theorem test_decode_P7 : look (fun t => (maskHead 20 t, t.maskLen, report t))
      (exec .decode (withBytes (begun 4#3 10 2) [0xFF#8, 0x89#8])) =
    some (List.replicate 10 (some true) ++ List.replicate 10 (some false), 20, 0b010#3, 0#2, 0, 2) := by decide +kernel

/-- Vector E3: row 1 finds no byte. -/
theorem test_decode_E3 : look (fun t => (t.maskLen, report t)) (exec .decode (withBytes (begun 4#3 9 2) [0x2A#8, 0xC1#8])) =
    some (0, 0b110#3, 1#2, 1, 2) := by decide +kernel

/-- Vectors K-3 and K-6: the contract exception. -/
theorem test_start_contract :
    look report (exec .start { idle 1#3 4 2 with pixLen := 7 }) = some (0b110#3, 3#2, 0, 0)
    ∧ look report (exec .start { withCap (idle 3#3 10 3) 5 with maskLen := 30 }) = some (0b110#3, 3#2, 0, 0) := by decide

/-- R151, H5: a `START` after a failure, with no `CLEAR`, runs and clears the record. -/
theorem test_start_after_failure : look report
      (exec .start { withBytes (idle 4#3 9 2) [0x2A#8, 0xC1#8, 0xC8#8] with
        status := 0b110#3, errcode := 1#2, errrow := 1, consumed := 2 }) = some (0b001#3, 0#2, 0, 2) := by decide

/-- Vector H4. -/
theorem test_clear : look report
      (exec .clear { idle 4#3 9 2 with status := 0b110#3, errcode := 1#2, errrow := 1, consumed := 2 }) =
    some (0b000#3, 0#2, 0, 2) := by decide

/-- H3 and R154: both commands are ignored while an operation runs. -/
theorem test_commands_while_busy :
    look report (exec .clear (begun 3#3 4 2)) = some (0b001#3, 0#2, 0, 0)
    ∧ look report (exec .start (begun 3#3 4 2)) = some (0b001#3, 0#2, 0, 0) := by decide

/-- H7 and H8: `MODE` keeps bit 0 alone; register 13 reads 0. -/
theorem test_registers :
    look (fun t => t.mode) (step (withMoves State.reset [.writeReg 4 0xFE])) = some 0#1
    ∧ look (fun t => t.lastRead) (step (withMoves State.reset [.readReg 13])) = some (.reg 0) := by decide

/-! ### Witnesses: reset and the step -/

theorem witness_ResetInputAbandonsOperation :
    (withMoves (begun 4#3 9 2) [.reset, .yield]).agenda = .reset :: [.yield] := rfl

/-- The last byte, the last bit and the last row; with no host move pending, and with a `yield`. -/
theorem witness_StepRunsFetchedBlock :
    ∀ ms ∈ ([[], [.yield, .readReg 9]] : List (List Move)),
      let s : State := { withBytes (begun 4#3 5 2) [0xC4#8, 0xC4#8] with
        work := { Work.reset with r := 1, bc := 1, buf := [true, true, true, true] }, agenda := ms };
      ((s.agenda = [] ∧ ms.tail = []) ∨ s.agenda = .yield :: ms.tail) ∧ s.busy = true ∧ s.op = 4#3
        ∧ s.work.r < s.height ∧ s.work.buf.length < s.width ∧ s.work.bc < s.bytesLen := by decide

/-- A running operation, and an idle core. -/
theorem witness_YieldTakesOneCoreStep :
    (withMoves (begun 3#3 3 2) [.yield, .readReg 9]).agenda = .yield :: [.readReg 9]
    ∧ (withMoves (idle 3#3 3 2) [.yield]).agenda = .yield :: [] := by decide

theorem witness_StepRunsSelectedOperation :
    ∀ c : Fin 4, let s := withMoves (begun (BitVec.ofNat 3 (c.val + 1)) 3 2) [.wait, .readReg 9];
      s.agenda = .wait :: [.readReg 9] ∧ s.busy = true
      ∧ decodeOp s.op = .ok ([Operation.extract, .pack, .encode, .decode].getD c.val .extract) := by decide

theorem witness_StepIssuesCommands :
    ∀ v : Fin 8, let s := withMoves State.reset [.writeReg 12 v.val];
      s.agenda = .writeReg 12 v.val :: [] ∧ (v.val % 4 = 0 ∨ v.val % 4 = 1 ∨ v.val % 4 = 2 ∨ v.val % 4 = 3) := by decide

/-- No move, `yield` and `wait`. -/
theorem witness_IdleCoreHoldsState :
    ((idle 4#3 9 2).busy = false ∧ (idle 4#3 9 2).agenda = [])
    ∧ (let s := withMoves (idle 4#3 9 2) [.yield, .readReg 9]; s.busy = false ∧ s.agenda = .yield :: [.readReg 9])
    ∧ (let s := withMoves (idle 4#3 9 2) [.wait]; s.busy = false ∧ s.agenda = .wait :: []) := by decide

theorem witness_DecodeOfEncode :
    (Instr.lit 0x7F#7).wf = true ∧ (Instr.run false 1).wf = true ∧ (Instr.run true 64).wf = true
    ∧ Instr.extract.wf = true ∧ Instr.start.wf = true := by decide

theorem witness_LitAppendsSevenBits : (0x7F#8).getLsbD 7 = false ∧ (0x00#8).getLsbD 7 = false := by decide

theorem witness_RunAppendsCopies : (0x80#8).getLsbD 7 = true ∧ (0xFF#8).getLsbD 7 = true := by decide

theorem witness_BlocksChangeOnlyBuf :
    (∃ t, exec (.lit 0x7F#7) (begun 4#3 3 1) = .next t) ∧ (∃ t, exec (.run true 64) (begun 4#3 3 1) = .next t) :=
  ⟨⟨_, rfl⟩, ⟨_, rfl⟩⟩

/-! ### Witnesses: the commands -/

/-- Each operation's checks at a boundary: lengths equal to the capacity, and the empty grid. -/
theorem witness_StartBeginsOperation :
    (let s := withCap (withPix (idle 1#3 3 2) rasterX11) 6; s.busy = false ∧ s.MeetsContract)
    ∧ (let s := withCap (withMask (idle 2#3 10 3) gridP1) 30; s.busy = false ∧ s.MeetsContract)
    ∧ (let s := withCap { idle 3#3 7 3 with maskLen := 21 } 21; s.busy = false ∧ s.MeetsContract)
    ∧ (let s := withCap (withBytes (idle 4#3 2 1) [0x2A#8, 0xC1#8]) 2; s.busy = false ∧ s.MeetsContract)
    ∧ (let s := idle 3#3 0 3; s.busy = false ∧ s.MeetsContract) := by
  refine ⟨?_, ?_, ?_, ?_, ?_⟩ <;> refine ⟨rfl, ?_⟩
  · exact .inl ⟨rfl, rfl, by rintro c ⟨⟩; decide, by rintro c ⟨⟩; decide⟩
  · exact .inr (.inl ⟨rfl, rfl, by rintro c ⟨⟩; decide, by rintro c ⟨⟩; decide⟩)
  · exact .inr (.inr (.inl ⟨rfl, rfl, by rintro c ⟨⟩; decide, by rintro c ⟨⟩; decide⟩))
  · exact .inr (.inr (.inr ⟨rfl, by rintro c ⟨⟩; decide, by rintro c ⟨⟩; decide⟩))
  · exact .inr (.inr (.inl ⟨rfl, rfl, by rintro c ⟨⟩, by rintro c ⟨⟩⟩))

/-- Vectors K-1, K-3, K-4 and K-7. -/
theorem witness_StartRaisesContract :
    (State.reset.busy = false ∧ ¬ State.reset.MeetsContract)
    ∧ (let s : State := { idle 1#3 4 2 with pixLen := 7 }; s.busy = false ∧ ¬ s.MeetsContract)
    ∧ (let s := idle 3#3 4 2; s.busy = false ∧ ¬ s.MeetsContract)
    ∧ (let s := withCap (idle 4#3 10 3) 29; s.busy = false ∧ ¬ s.MeetsContract) := by
  refine ⟨⟨rfl, ?_⟩, ⟨rfl, ?_⟩, ⟨rfl, ?_⟩, ⟨rfl, ?_⟩⟩
  · rintro (⟨h, _⟩ | ⟨h, _⟩ | ⟨h, _⟩ | ⟨h, _⟩) <;> exact absurd h (by decide)
  · rintro (⟨_, h, _⟩ | ⟨h, _⟩ | ⟨h, _⟩ | ⟨h, _⟩) <;> exact absurd h (by decide)
  · rintro (⟨h, _⟩ | ⟨h, _⟩ | ⟨_, h, _⟩ | ⟨h, _⟩) <;> exact absurd h (by decide)
  · rintro (⟨h, _⟩ | ⟨h, _⟩ | ⟨h, _⟩ | ⟨_, _, h⟩)
    · exact absurd h (by decide)
    · exact absurd h (by decide)
    · exact absurd h (by decide)
    · exact absurd (h 29 rfl) (by decide)

/-- A `START` alone and `CLEAR` with `START`; the last step of the hypotheses is the step itself. -/
theorem witness_OnlyStartMakesBusy :
    (let s := withMoves (idle 3#3 0 3) [.writeReg 12 1]; s.busy = false ∧ look State.busy (step s) = some true)
    ∧ (let s := withMoves (idle 3#3 0 3) [.writeReg 12 3]; s.busy = false ∧ look State.busy (step s) = some true) := by
  decide

theorem witness_StartIgnoredWhileBusy : (begun 3#3 4 2).busy = true := by decide

/-! ### Witnesses: the operations -/

theorem begun_begun (op : BitVec 3) (w h : Nat) : (begun op w h).Begun := ⟨rfl, rfl⟩

/-- The last cell and the first element past the grid. -/
theorem witness_ExtractBuildsMask :
    let s := withPix (begun 1#3 3 2) rasterX11;
    s.Begun ∧ (1 < s.height ∧ 2 < s.width) ∧ s.width * s.height ≤ 6 := ⟨⟨rfl, rfl⟩, by decide, by decide⟩

theorem witness_ExtractedPlanesAreDisjoint :
    let s := withPix (begun 1#3 3 2) rasterX11;
    s.Begun ∧ 0xFF0000#24 ≠ s.target ∧ 1 < s.height ∧ 2 < s.width := ⟨⟨rfl, rfl⟩, by decide, by decide, by decide⟩

/-- The last position of a row of 10, and a padding position. -/
theorem witness_PackedRowBits :
    let R : Row := List.replicate 10 true;
    (1 < (R.length + 7) / 8 ∧ 1 < 8 ∧ 8 * 1 + 1 < R.length) ∧ (1 < (R.length + 7) / 8 ∧ 7 < 8 ∧ ¬ 8 * 1 + 7 < R.length) := by
  decide

theorem witness_PackWritesPackedPlane :
    let s := withMask (begun 2#3 10 3) gridP1;
    s.Begun ∧ (2 < s.height ∧ 1 < (s.width + 7) / 8 ∧ 7 < 8) ∧ s.height * ((s.width + 7) / 8) ≤ 6 :=
  ⟨⟨rfl, rfl⟩, by decide, by decide⟩

/-- A uniform window at the row end, one in the row, and a mixed one (`1110000` and `010`). -/
theorem witness_EncoderEmitsRunOrLiteral :
    (let R : Row := [true, true, true, false, false, false, false, true];
      7 < R.length ∧ ∀ i, i < min 7 (R.length - 7) → R.getD (7 + i) false = R.getD 7 false)
    ∧ (let R : Row := List.replicate 65 true;
      0 < R.length ∧ ∀ i, i < min 7 (R.length - 0) → R.getD (0 + i) false = R.getD 0 false)
    ∧ (let R : Row := [false, true, false];
      0 < R.length ∧ ¬ ∀ i, i < min 7 (R.length - 0) → R.getD (0 + i) false = R.getD 0 false) := by decide

/-- A running `ENCODE` at a uniform window (the last position of a row of 8) and at a mixed one (a row of 3). -/
theorem witness_EncodeStepWritesWork :
    (let s : State := { withMask (begun 3#3 8 1) [true, true, true, true, true, true, true, false] with
        work := { Work.reset with x := 7, wl := 7, v := true, d := 7, run := 7, wp := 1 } };
      (s.agenda = [] ∧ s.busy = true ∧ s.op = 3#3 ∧ s.work.r < s.height ∧ s.work.x < s.width)
      ∧ ∀ i, i < min 7 (s.width - s.work.x) →
          s.maskAt (s.work.r * s.width + (s.work.x + i)) = s.maskAt (s.work.r * s.width + s.work.x))
    ∧ (let s := withMask (begun 3#3 3 1) [false, true, false];
      (s.agenda = [] ∧ s.busy = true ∧ s.op = 3#3 ∧ s.work.r < s.height ∧ s.work.x < s.width)
      ∧ ¬ ∀ i, i < min 7 (s.width - s.work.x) →
          s.maskAt (s.work.r * s.width + (s.work.x + i)) = s.maskAt (s.work.r * s.width + s.work.x)) := by
  decide +kernel

theorem witness_EncodeWritesEncodedPlane :
    let s := withMask (begun 3#3 10 3) gridP1;
    s.Begun ∧ 3 < (encPlane s.grid).length ∧ (encPlane s.grid).length ≤ 4 := ⟨⟨rfl, rfl⟩, by decide +kernel, by decide +kernel⟩

theorem witness_EncodedPlaneSizeBounds : (withMask (begun 3#3 10 3) gridP1).Begun := ⟨rfl, rfl⟩

theorem witness_EncoderNeverEmitsUniformLiteral : (0x01#8 ≠ 0x00#8 ∧ 0x01#8 ≠ 0x7F#8) ∧ 0xFF#8 ≠ 0x00#8 ∧ 0xFF#8 ≠ 0x7F#8 := by
  decide

/-- R104's example: 71 ones. -/
theorem witness_RunsAreMaximal :
    let R : Row := List.replicate 71 true;
    (encRow R)[0]? = some 0xFF#8 ∧ (encRow R)[1]? = some 0xC6#8 ∧ decodeBlock 0xFF#8 = .run true 64
      ∧ decodeBlock 0xC6#8 = .run true 7 := by decide +kernel

/-- The longest Run shorter than 7, after a Literal. -/
theorem witness_ShortRunEndsRow :
    let R : Row := [false, true, false, true, false, true, false, true, true, true, true, true, true];
    (encRow R)[1]? = some 0xC5#8 ∧ decodeBlock 0xC5#8 = .run true 6 ∧ 6 < 7 := by decide +kernel

/-- Vectors B1 and B3. -/
theorem witness_DecodedRowHasDeclaredWidth :
    decRow 5 [0xC4#8] = some ([true, true, true, true, true], 1) ∧ decRow 0 [] = some ([], 0) := by decide

/-- Vector B2, with a byte that is not read. -/
theorem witness_RowDecodeReadsOnlyConsumedBytes : decRow 3 [0x20#8, 0xFF#8] = some ([false, true, false], 1) := by decide

/-- Vector P6. -/
theorem witness_DecodeRebuildsGrid :
    let s := withBytes (begun 4#3 9 2) [0x2A#8, 0xC1#8, 0xC8#8];
    s.Begun ∧ decPlane s.stream s.width s.height s.strict =
      .ok ([[false, true, false, true, false, true, false, true, true], List.replicate 9 true], 3)
      ∧ (1 < s.height ∧ 8 < s.width) ∧ s.width * s.height ≤ 18 :=
  ⟨⟨rfl, rfl⟩, by decide +kernel, by decide, by decide⟩

/-- Vector E4. -/
theorem witness_TruncatedStreamRaises :
    let s := withBytes (begun 4#3 10 2) [0xFF#8];
    s.Begun ∧ decPlane s.stream s.width s.height s.strict = .error (.truncated 1) := ⟨⟨rfl, rfl⟩, by decide +kernel⟩

/-- Vector E6. -/
theorem witness_TrailingBytesRaise :
    let s := withBytes (begun 4#3 9 2) [0x2A#8, 0xC1#8, 0xC8#8, 0x00#8];
    s.Begun ∧ decPlane s.stream s.width s.height s.strict = .error (.trailing 3) := ⟨⟨rfl, rfl⟩, by decide +kernel⟩

/-- Vectors E10 and E12 (a byte remains, strict), P9 (no byte) and E11 (not strict). -/
theorem witness_DegenerateShapes :
    (let s := withBytes (begun 4#3 0 3) [0x55#8];
      s.Begun ∧ (s.width = 0 ∨ s.height = 0) ∧ s.mode = 1#1 ∧ 0 < s.bytesLen)
    ∧ (let s := withBytes (begun 4#3 5 0) [0x01#8];
      s.Begun ∧ (s.width = 0 ∨ s.height = 0) ∧ s.mode = 1#1 ∧ 0 < s.bytesLen)
    ∧ (let s := begun 4#3 0 3; s.Begun ∧ (s.width = 0 ∨ s.height = 0) ∧ ¬ 0 < s.bytesLen)
    ∧ (let s : State := { withBytes (begun 4#3 0 3) [0x55#8] with mode := 0#1 };
      s.Begun ∧ (s.width = 0 ∨ s.height = 0) ∧ s.mode ≠ 1#1) :=
  ⟨⟨⟨rfl, rfl⟩, by decide, by decide⟩, ⟨⟨rfl, rfl⟩, by decide, by decide⟩, ⟨⟨rfl, rfl⟩, by decide, by decide⟩,
    ⟨⟨rfl, rfl⟩, by decide, by decide⟩⟩

theorem witness_PlaneRoundTrip :
    (∀ R ∈ ([[true, false, true], [false, false, false]] : List Row), R.length = 3)
    ∧ ∀ R ∈ ([[], []] : List Row), R.length = 0 := by decide

theorem witness_EncodeThenDecodeReproducesMask :
    let s := withMask (begun 3#3 10 3) gridP1;
    s.Begun ∧ 29 < s.width * s.height := ⟨⟨rfl, rfl⟩, by decide⟩

/-- `DECODE` that ends done (P7) and one that fails (E4). -/
theorem witness_EveryOperationTerminates :
    (withBytes (begun 4#3 10 2) [0xFF#8, 0x89#8]).busy = true ∧ (withBytes (begun 4#3 10 2) [0xFF#8]).busy = true := by decide

/-- A write the running operation ignores, and its own step. -/
theorem witness_BusyStepKeepsConfiguration :
    (let s := withMoves (begun 1#3 3 2) [.writeReg 1 5]
     s.busy = true ∧ (∀ ms, s.agenda ≠ .reset :: ms) ∧ ∃ t, step s = .next t)
    ∧ (let s := withPix (begun 1#3 3 2) rasterX11
     s.busy = true ∧ (∀ ms, s.agenda ≠ .reset :: ms) ∧ ∃ t, step s = .next t) :=
  ⟨⟨rfl, (fun _ h => by cases h), ⟨_, rfl⟩⟩, ⟨rfl, (fun _ h => by cases h), ⟨_, rfl⟩⟩⟩

theorem witness_StepFormReachesAtomicForm :
    ∀ c : Fin 4, let s := begun (BitVec.ofNat 3 (c.val + 1)) 3 2
      s.busy = true ∧ s.agenda = []
      ∧ decodeOp s.op = .ok ([Operation.extract, .pack, .encode, .decode].getD c.val .extract) := by decide

theorem witness_OperationsWriteOnlyTheirOutputs :
    (∃ t, exec .extract (withPix (begun 1#3 3 2) rasterX11) = .next t)
    ∧ (∃ t, exec .pack (withMask (begun 2#3 10 3) gridP1) = .next t)
    ∧ (∃ t, exec .encode (withMask (begun 3#3 10 3) gridP1) = .next t)
    ∧ (∃ t, exec .decode (withBytes (begun 4#3 10 2) [0xFF#8, 0x89#8]) = .next t) :=
  ⟨⟨_, rfl⟩, ⟨_, rfl⟩, ⟨_, rfl⟩, ⟨_, rfl⟩⟩

theorem witness_OperationsNeedStart : (idle 1#3 3 2).busy = false := by decide

/-! ### Witnesses: the host's accesses -/

/-- Every register number up to 13 but `CMD`'s. -/
theorem witness_IdleWriteStoresCutValue :
    ∀ k : Fin 14, k.val ≠ 12 → let s := withMoves (idle 1#3 3 2) [.writeReg k.val 0x12345678A, .readReg 0];
      s.agenda = .writeReg k.val 0x12345678A :: [.readReg 0] ∧ s.busy = false ∧ k.val ≠ 12 := by decide

/-- `WIDTH` (H2) and `CMD` (H3). -/
theorem witness_BusyWritesAreIgnored :
    (let s := withMoves (begun 1#3 3 2) [.writeReg 1 5]; s.agenda = .writeReg 1 5 :: [] ∧ s.busy = true)
    ∧ (let s := withMoves (begun 1#3 3 2) [.writeReg 12 1]; s.agenda = .writeReg 12 1 :: [] ∧ s.busy = true) := by decide

/-- Idle, every register number; busy, the configuration registers, `STATUS`, `CMD` and a number that names none. -/
theorem witness_ReadsReturnValues :
    (∀ k : Fin 14, let s := withMoves (idle 1#3 3 2) [.readReg k.val];
      s.agenda = .readReg k.val :: [] ∧ (s.busy = false ∨ k.val ≤ 5 ∨ k.val = 9 ∨ 12 ≤ k.val))
    ∧ (∀ k ∈ ([0, 1, 2, 3, 4, 5, 9, 12, 13] : List Nat), let s := withMoves (begun 1#3 3 2) [.readReg k];
      s.agenda = .readReg k :: [] ∧ s.busy = true ∧ (s.busy = false ∨ k ≤ 5 ∨ k = 9 ∨ 12 ≤ k)) := by decide

theorem witness_BusyResultReadsChangeNothing :
    ∀ k ∈ ([6, 7, 8, 10, 11] : List Nat), let s := withMoves (begun 1#3 3 2) [.readReg k];
      s.agenda = .readReg k :: [] ∧ s.busy = true ∧ (k = 6 ∨ k = 7 ∨ k = 8 ∨ k = 10 ∨ k = 11) := by decide

/-- The last element of each buffer, at a capacity of 4. -/
theorem witness_IdleBufferWriteStores :
    (let s := withMoves (withCap (idle 1#3 3 2) 4) [.writePix 3 ⟨1, 2, 3⟩];
      s.busy = false ∧ s.agenda = .writePix 3 ⟨1, 2, 3⟩ :: [] ∧ ∀ c ∈ s.params.pixCap, 3 < c)
    ∧ (let s := withMoves (withCap (idle 1#3 3 2) 4) [.writeMask 3 true];
      s.busy = false ∧ s.agenda = .writeMask 3 true :: [] ∧ ∀ c ∈ s.params.maskCap, 3 < c)
    ∧ (let s := withMoves (withCap (idle 1#3 3 2) 4) [.writeBytes 3 0xC4#8];
      s.busy = false ∧ s.agenda = .writeBytes 3 0xC4#8 :: [] ∧ ∀ c ∈ s.params.bytesCap, 3 < c) := by
  refine ⟨⟨rfl, rfl, ?_⟩, ⟨rfl, rfl, ?_⟩, ⟨rfl, rfl, ?_⟩⟩ <;> (rintro c ⟨⟩; decide)

theorem witness_BusyBufferWriteIsRefused :
    (let s := withMoves (begun 1#3 3 2) [.writePix 0 ⟨1, 2, 3⟩]; s.busy = true ∧ s.agenda = .writePix 0 ⟨1, 2, 3⟩ :: [])
    ∧ (let s := withMoves (begun 1#3 3 2) [.writeMask 0 true]; s.busy = true ∧ s.agenda = .writeMask 0 true :: [])
    ∧ (let s := withMoves (begun 1#3 3 2) [.writeBytes 0 0#8]; s.busy = true ∧ s.agenda = .writeBytes 0 0#8 :: []) := by
  decide

/-- The last element of each buffer at a capacity of 4; an idle core, a running operation that reads the buffer, and one
that writes it. -/
theorem witness_BufferReadsChangeNothing :
    (let s := withMoves (withCap (begun 1#3 3 1) 4) [.readPix 3];
      s.agenda = .readPix 3 :: [] ∧ ∀ c ∈ s.params.pixCap, 3 < c)
    ∧ (let s := withMoves (withCap (idle 1#3 3 1) 4) [.readMask 3];
      s.agenda = .readMask 3 :: [] ∧ (∀ c ∈ s.params.maskCap, 3 < c) ∧ s.busy = false)
    ∧ (let s := withMoves (withCap (begun 2#3 3 1) 4) [.readMask 3];
      s.agenda = .readMask 3 :: [] ∧ (∀ c ∈ s.params.maskCap, 3 < c) ∧ s.busy = true ∧ s.op = 2#3)
    ∧ (let s := withMoves (withCap (begun 1#3 3 1) 4) [.readMask 3];
      s.agenda = .readMask 3 :: [] ∧ (∀ c ∈ s.params.maskCap, 3 < c) ∧ s.busy = true ∧ s.op = 1#3)
    ∧ (let s := withMoves (withCap (begun 4#3 3 1) 4) [.readBytes 3];
      s.agenda = .readBytes 3 :: [] ∧ (∀ c ∈ s.params.bytesCap, 3 < c) ∧ s.busy = true ∧ s.op = 4#3)
    ∧ (let s := withMoves (withCap (begun 3#3 3 1) 4) [.readBytes 3];
      s.agenda = .readBytes 3 :: [] ∧ (∀ c ∈ s.params.bytesCap, 3 < c) ∧ s.busy = true ∧ s.op = 3#3) := by
  refine ⟨⟨rfl, ?_⟩, ⟨rfl, ?_, rfl⟩, ⟨rfl, ?_, rfl, rfl⟩, ⟨rfl, ?_, rfl, rfl⟩, ⟨rfl, ?_, rfl, rfl⟩, ⟨rfl, ?_, rfl, rfl⟩⟩ <;>
    (rintro c ⟨⟩; decide)

/-- Element 4 of buffers of 4 elements, for each of the six accesses; also at a capacity of 0. -/
theorem witness_AccessPastCapacityFaults :
    4 ≤ 4
    ∧ (∀ m ∈ ([.readPix 4, .readMask 4, .readBytes 4, .writePix 4 ⟨1, 2, 3⟩, .writeMask 4 true, .writeBytes 4 0#8] :
          List Move),
        let s := withMoves (withCap (idle 1#3 3 1) 4) [m];
        s.agenda = m :: [] ∧ s.params.pixCap = some 4 ∧ s.params.maskCap = some 4 ∧ s.params.bytesCap = some 4
          ∧ s.busy = false)
    ∧ (let s := withMoves (withCap State.reset 0) [.readMask 0]; s.agenda = .readMask 0 :: [] ∧ s.params.maskCap = some 0) := by
  decide

/-! ### Witnesses: the invariants -/

/-- A running `DECODE` in the middle of its stream. -/
def midDecode : State :=
  { withBytes (begun 4#3 9 2) [0x2A#8, 0xC1#8, 0xC8#8] with
    work := { Work.reset with bc := 1, buf := [false, true, false, true, false, true, false] } }

theorem witness_StepKeepsCanonicalBuffers : midDecode.Canonical ∧ ∃ t, step midDecode = .next t :=
  ⟨⟨by decide, by decide, by decide⟩, ⟨_, rfl⟩⟩

theorem witness_StepKeepsLegalFlags : midDecode.Control ∧ ∃ t, step midDecode = .next t :=
  ⟨⟨by decide, by decide, by decide, by decide⟩, ⟨_, rfl⟩⟩

theorem witness_StepKeepsRanges : midDecode.InRange ∧ ∃ t, step midDecode = .next t :=
  ⟨{ params := by decide
     widths := ⟨by decide, by decide, by decide, by decide, by decide, by decide, by decide⟩
     pix := by decide
     mask := by decide
     bytes := by decide
     contract := by decide
     work := fun _ => ⟨by decide, by decide, by decide, by decide, by decide, by decide, by decide, by decide, by decide,
       by decide, by decide, by decide, by decide, by decide⟩ }, ⟨_, rfl⟩⟩

/-- A running `ENCODE` that has emitted a Run, so that the lower ends of `wl`, `run` and `d` apply. -/
def midEncode : State :=
  { withMask (begun 3#3 8 1) [true, true, true, true, true, true, true, false] with
    bytes := filled [0xC6#8]
    work := { Work.reset with x := 7, wl := 7, v := true, d := 7, run := 7, wp := 1 } }

theorem witness_StepKeepsRanges_encode : midEncode.InRange ∧ 0 < midEncode.work.d ∧ ∃ t, step midEncode = .next t :=
  ⟨{ params := by decide
     widths := ⟨by decide, by decide, by decide, by decide, by decide, by decide, by decide⟩
     pix := by decide
     mask := by decide
     bytes := by decide
     contract := by decide
     work := fun _ => ⟨by decide, by decide, by decide, by decide, by decide, by decide, by decide, by decide, by decide,
       by decide, by decide, by decide, by decide, by decide⟩ }, by decide, ⟨_, rfl⟩⟩

end Sys2Proof.Tests
end

section
/-! SUPPORT. The host's accesses and the core's turn: one rule per operation, and once what a move that answers a next
state can have done. -/

namespace Sys2Proof.Machine

/-! ### Register numbers, and what a host write to a register does -/

/-- The number of a register (R22). -/
def Reg.num : Reg → Nat
  | .op       => 0
  | .width    => 1
  | .height   => 2
  | .target   => 3
  | .mode     => 4
  | .pixLen   => 5
  | .maskLen  => 6
  | .bytesLen => 7
  | .consumed => 8
  | .status   => 9
  | .errcode  => 10
  | .errrow   => 11
  | .cmd      => 12

/-- A register is named by its number and by no other. -/
theorem Reg.ofNum_eq_some_iff {k : Nat} {g : Reg} : Reg.ofNum k = some g ↔ k = g.num := by
  constructor
  · intro h
    unfold Reg.ofNum at h
    split at h <;> cases h <;> rfl
  · rintro rfl
    cases g <;> rfl

section
variable (s : State) (v : Nat) (g : Reg)

@[simp] theorem State.setReg_params : (s.setReg v g).params = s.params := by cases g <;> rfl
@[simp] theorem State.setReg_status : (s.setReg v g).status = s.status := by cases g <;> rfl
@[simp] theorem State.setReg_errcode : (s.setReg v g).errcode = s.errcode := by cases g <;> rfl
@[simp] theorem State.setReg_errrow : (s.setReg v g).errrow = s.errrow := by cases g <;> rfl
@[simp] theorem State.setReg_pix : (s.setReg v g).pix = s.pix := by cases g <;> rfl
@[simp] theorem State.setReg_mask : (s.setReg v g).mask = s.mask := by cases g <;> rfl
@[simp] theorem State.setReg_bytes : (s.setReg v g).bytes = s.bytes := by cases g <;> rfl
@[simp] theorem State.setReg_work : (s.setReg v g).work = s.work := by cases g <;> rfl
@[simp] theorem State.setReg_busy : (s.setReg v g).busy = s.busy := by unfold State.busy; rw [State.setReg_status]

end

/-- What a host write to a register other than `CMD` can do: nothing, or on an idle core one register is set. -/
theorem State.hostWriteReg_cases (s : State) (k v : Nat) :
    s.hostWriteReg k v = s ∨ (s.busy = false ∧ ∃ g, s.hostWriteReg k v = s.setReg v g) := by
  unfold State.hostWriteReg
  cases hb : s.busy with
  | true => exact .inl rfl
  | false =>
    cases hk : Reg.ofNum k with
    | none => exact .inl rfl
    | some g => exact .inr ⟨rfl, g, rfl⟩

/-! ### The commands -/

theorem State.busy_idle_absurd {s : State} (hb : s.busy = true) (hidle : s.busy = false) : False :=
  Bool.false_ne_true (hidle.symm.trans hb)

@[simp] theorem clearState_busy (s : State) : (clearState s).busy = s.busy := by
  rcases clearState_cases s with ⟨_, e⟩ | ⟨hb, e⟩ <;> rw [e]
  rw [hb, State.clearOutcome_busy]

/-- `CLEAR` changes nothing the checks of `START` look at. -/
theorem clearState_meetsContract_iff (s : State) : (clearState s).MeetsContract ↔ s.MeetsContract := by
  rcases clearState_cases s with ⟨_, e⟩ | ⟨_, e⟩ <;> rw [e]
  exact Iff.rfl

/-- A `START` on an idle core that leads to a running operation passed its checks. -/
theorem meetsContract_of_startState_busy {s : State} (hb : s.busy = false) (h : (startState s).busy = true) :
    s.MeetsContract := by
  rcases startState_cases s with ⟨hb', _⟩ | ⟨_, hc, _⟩ | ⟨_, _, e⟩
  · exact (State.busy_idle_absurd hb' hb).elim
  · exact hc
  · rw [e] at h
    exact (State.busy_idle_absurd h (State.takeException_busy _ _ _)).elim

/-! ### A register write -/

/-- A write to `CMD` is `CLEAR` where bit 1 of the value is set, then `START` where bit 0 is (R31). -/
theorem hostWriteRegister_cmd (v : Nat) (s : State) :
    hostWriteRegister 12 v s =
      .next ((if v % 2 = 1 then startState else id) ((if v / 2 % 2 = 1 then clearState else id) s)) := by
  have bit0 : (BitVec.ofNat 2 v).getLsbD 0 = decide (v % 2 = 1) := by
    rw [BitVec.getLsbD_ofNat]; simp
  have bit1 : (BitVec.ofNat 2 v).getLsbD 1 = decide (v / 2 % 2 = 1) := by
    rw [BitVec.getLsbD_ofNat, Nat.testBit_eq_decide_div_mod_eq]; simp
  unfold hostWriteRegister decodeCmd
  rw [if_pos (show Reg.ofNum 12 = some .cmd from rfl), bit0, bit1]
  by_cases hstart : v % 2 = 1 <;> by_cases hclear : v / 2 % 2 = 1 <;> simp only [hstart, hclear] <;> rfl

theorem hostWriteRegister_of_ne {k : Nat} (hk : k ≠ 12) (v : Nat) (s : State) :
    hostWriteRegister k v s = .next (s.hostWriteReg k v) :=
  if_neg fun h => hk (Reg.ofNum_eq_some_iff.mp h)

@[simp] theorem State.hostWriteReg_busy (s : State) (k v : Nat) : (s.hostWriteReg k v).busy = s.busy := by
  rcases s.hostWriteReg_cases k v with e | ⟨_, g, e⟩ <;> rw [e]
  exact s.setReg_busy v g

/-- While an operation runs a register write, `CMD` included, changes nothing (R155). -/
theorem hostWriteRegister_of_busy {s : State} (hb : s.busy = true) (k v : Nat) :
    hostWriteRegister k v s = .next s := by
  have hstart : startState s = s := if_pos hb
  have hclear : clearState s = s := if_pos hb
  by_cases hk : k = 12
  · rw [hk, hostWriteRegister_cmd]
    split <;> split <;> simp only [id, hclear, hstart]
  · rw [hostWriteRegister_of_ne hk]
    exact congrArg _ (if_pos hb)

/-! ### What a host read of a register delivers -/

/-- A read delivers the register's value on an idle core, and at all times where it is no result register (R155). -/
theorem State.hostReadReg_of_value {s : State} {k : Nat} {g : Reg} (hk : Reg.ofNum k = some g)
    (h : s.busy = false ∨ g.isResult = false) : s.hostReadReg k = s.deliver (.reg (s.regValue g)) := by
  have hfree : (s.busy && g.isResult) = false := by rcases h with h | h <;> simp [h]
  simp [State.hostReadReg, hk, hfree]

theorem State.hostReadReg_of_none {s : State} {k : Nat} (hk : Reg.ofNum k = none) :
    s.hostReadReg k = s.deliver (.reg 0) := by
  simp [State.hostReadReg, hk]

theorem State.hostReadReg_of_busy {s : State} {k : Nat} {g : Reg} (hk : Reg.ofNum k = some g) (hb : s.busy = true)
    (hres : g.isResult = true) :
    s.hostReadReg k = (s.deliver (.reg (Config.freeReg s.fresh % 2 ^ g.bits s.params))).nextFree := by
  simp [State.hostReadReg, hk, hb, hres]

/-- A host read of a register changes what was read last and the number of the next free value alone. -/
theorem State.hostReadReg_frame (s : State) (k : Nat) :
    ∃ d n, s.hostReadReg k = { s with lastRead := d, fresh := n } := by
  unfold State.hostReadReg
  split
  · exact ⟨_, _, rfl⟩
  · split
    · exact ⟨_, _, rfl⟩
    · exact ⟨_, _, rfl⟩

theorem State.hostReadMask_frame (s : State) (i : Nat) :
    ∃ d n, s.hostReadMask i = { s with lastRead := d, fresh := n } := by
  unfold State.hostReadMask
  split
  · exact ⟨_, _, rfl⟩
  · exact ⟨_, _, rfl⟩

theorem State.hostReadBytes_frame (s : State) (i : Nat) :
    ∃ d n, s.hostReadBytes i = { s with lastRead := d, fresh := n } := by
  unfold State.hostReadBytes
  split
  · exact ⟨_, _, rfl⟩
  · exact ⟨_, _, rfl⟩

/-! ### A host access to a buffer -/

theorem State.ifElement_next {s t u : State} {b : BufName} {i : Nat} (h : s.ifElement b i u = .next t) : t = u := by
  unfold State.ifElement at h
  split at h <;> cases h
  rfl

/-- A host write to a buffer that answers a next state found the core idle. -/
theorem State.hostWrite_next {s t u : State} {b : BufName} {i : Nat} (h : s.hostWrite b i u = .next t) :
    s.busy = false ∧ t = u := by
  unfold State.hostWrite at h
  split at h
  · cases h
  · exact ⟨Bool.eq_false_of_not_eq_true ‹_›, State.ifElement_next h⟩

/-- An access to an element at or past the capacity. -/
theorem State.ifElement_past {s : State} {b : BufName} {i c : Nat} (hcap : b.cap s.params = some c) (hi : c ≤ i)
    (t : State) : s.ifElement b i t = .fault (.noSuchElement b i) := by
  have hno : inCap i (b.cap s.params) = false := by rw [hcap]; exact decide_eq_false (Nat.not_lt.mpr hi)
  simp [State.ifElement, hno]

theorem State.hostWrite_of_idle {s : State} (hb : s.busy = false) (b : BufName) (i : Nat) (t : State) :
    s.hostWrite b i t = s.ifElement b i t := by
  simp [State.hostWrite, hb]

/-! ### The core's turn, and what a move can have done -/

/-- The core's turn: nothing, or one step of the running operation. -/
theorem coreTurn_cases (s : State) :
    coreTurn s = .next s
    ∨ ∃ o, s.busy = true ∧ s.operation = some o ∧ coreTurn s = .next (opTick o s) := by
  cases hb : s.busy with
  | false => exact .inl (coreTurn_nothing (.inl hb))
  | true =>
    cases ho : s.operation with
    | none => exact .inl (coreTurn_nothing (.inr ho))
    | some o => exact .inr ⟨o, rfl, rfl, coreTurn_operation hb ho⟩

theorem coreToEnd_operation {s : State} {o : Operation} (hb : s.busy = true) (ho : s.operation = some o) :
    coreToEnd s = exec o.toInstr s := by
  simp [coreToEnd, hb, ho]

/-- Waiting for the core: nothing, or the running operation to its end. -/
theorem coreToEnd_cases (s : State) :
    coreToEnd s = .next s
    ∨ ∃ o, s.busy = true ∧ s.operation = some o ∧ coreToEnd s = .next (runToEnd (opTick o) s) := by
  cases hb : s.busy with
  | false => exact .inl (by simp [coreToEnd, hb])
  | true =>
    cases ho : s.operation with
    | none => exact .inl (by simp [coreToEnd, hb, ho])
    | some o => exact .inr ⟨o, rfl, rfl, (coreToEnd_operation hb ho).trans (exec_operation o s)⟩

/-- What a move that answers a next state can have done: a register write, a read, a buffer write on an idle core, the
core's turn, a wait, or a reset. -/
theorem Move.run_next_cases {m : Move} {s t : State} (h : m.run s = .next t) :
    (∃ k v, m = .writeReg k v ∧ hostWriteRegister k v s = .next t)
    ∨ (∃ d n, t = { s with lastRead := d, fresh := n })
    ∨ (s.busy = false ∧ ∃ p a b, t = { s with pix := p, mask := a, bytes := b })
    ∨ (m = .yield ∧ coreTurn s = .next t)
    ∨ (m = .wait ∧ coreToEnd s = .next t)
    ∨ (m = .reset ∧ t = s.resetCore) := by
  cases m with
  | writeReg k v => exact .inl ⟨k, v, rfl, h⟩
  | readReg k => cases h; exact .inr (.inl (s.hostReadReg_frame k))
  | readPix i => rw [State.ifElement_next h]; exact .inr (.inl ⟨_, _, rfl⟩)
  | readMask i => rw [State.ifElement_next h]; exact .inr (.inl (s.hostReadMask_frame i))
  | readBytes i => rw [State.ifElement_next h]; exact .inr (.inl (s.hostReadBytes_frame i))
  | writePix i p => obtain ⟨hb, rfl⟩ := State.hostWrite_next h; exact .inr (.inr (.inl ⟨hb, _, _, _, rfl⟩))
  | writeMask i b => obtain ⟨hb, rfl⟩ := State.hostWrite_next h; exact .inr (.inr (.inl ⟨hb, _, _, _, rfl⟩))
  | writeBytes i b => obtain ⟨hb, rfl⟩ := State.hostWrite_next h; exact .inr (.inr (.inl ⟨hb, _, _, _, rfl⟩))
  | yield => exact .inr (.inr (.inr (.inl ⟨rfl, h⟩)))
  | wait => exact .inr (.inr (.inr (.inr (.inl ⟨rfl, h⟩))))
  | reset => cases h; exact .inr (.inr (.inr (.inr (.inr ⟨rfl, rfl⟩))))

end Sys2Proof.Machine
end

section
/-! SUPPORT. Proofs about the encodings (R63 to R71, R79): every well-formed instruction is read back. -/

namespace Sys2Proof.Machine

/-- A Literal's byte, its payload with a zero above it, decodes to the Literal (R64, R67). -/
theorem decodeBlock_setWidth (p : BitVec 7) : decodeBlock (p.setWidth 8) = .lit p := by simp [decodeBlock]

theorem Instr.wf_run {v : Bit} {len : Nat} : (Instr.run v len).wf = true ↔ 1 ≤ len ∧ len ≤ 64 := by
  simp only [Instr.wf, Bool.and_eq_true, decide_eq_true_eq]
  rfl

/-- Settles O10: block bytes by their format, the codes of `OP` and `CMD` by evaluation. -/
theorem decodeOfEncode : Obligations.DecodeOfEncode := by
  intro i hi
  cases i with
  | lit p => exact congrArg (fun b => Except.ok [b.toInstr]) (decodeBlock_setWidth p)
  | run v len =>
    obtain ⟨h1, h64⟩ := Instr.wf_run.mp hi
    exact congrArg (fun b => Except.ok [b.toInstr]) (decodeBlock_runByte v h1 h64)
  | extract => rfl
  | pack => rfl
  | encode => rfl
  | decode => rfl
  | start => rfl
  | clear => rfl

/-- Settles O9: each word is evaluated. -/
theorem specWordsDecode : Obligations.SpecWordsDecode := by
  unfold Obligations.SpecWordsDecode
  decide

end Sys2Proof.Machine
end

section
/-! SUPPORT. Proofs about the flags and the failure record (R29, R30): every step keeps them legal. -/

namespace Sys2Proof.Machine

theorem Status.eq_running {st : BitVec 3} (hl : Status.legal st = true) (hb : st.getLsbD 0 = true) :
    st = Status.running := by
  revert st; decide

/-- A running operation's failure record is empty (R30, R151). -/
theorem State.Control.running {s : State} (h : s.Control) (hb : s.busy = true) : s.errcode = 0#2 ∧ s.errrow = 0 := by
  refine h.noError ?_
  unfold State.err
  rw [Status.eq_running h.status hb]
  rfl

/-- A state with the same flags and failure record, and the same working registers where it is idle. -/
theorem State.Control.congr {s t : State} (h : s.Control) (hst : t.status = s.status) (hcode : t.errcode = s.errcode)
    (hrow : t.errrow = s.errrow) (hwork : s.busy = false → t.work = s.work) : t.Control := by
  have hbusy : t.busy = s.busy := by unfold State.busy; rw [hst]
  have herr : t.err = s.err := by unfold State.err; rw [hst]
  refine ⟨hst ▸ h.status, fun e => ?_, fun e => ?_, fun e => ?_⟩
  · rw [hcode, hrow]; exact h.noError (herr ▸ e)
  · rw [hcode]; exact h.anError (herr ▸ e)
  · rw [hbusy] at e; rw [hwork e]; exact h.idleWork e

/-- A state that reports no error and has an empty failure record. -/
theorem State.control_of_noError {s : State} (hst : Status.legal s.status = true) (herr : s.err = false)
    (hcode : s.errcode = 0#2) (hrow : s.errrow = 0) (hwork : s.busy = false → s.work = Work.reset) : s.Control :=
  ⟨hst, fun _ => ⟨hcode, hrow⟩, fun e => absurd (herr.symm.trans e) Bool.false_ne_true, hwork⟩

theorem Status.idle_err : Status.idle.getLsbD 2 = false := by decide
theorem Status.running_err : Status.running.getLsbD 2 = false := by decide
theorem Status.done_err : Status.done.getLsbD 2 = false := by decide
theorem Status.failed_err : Status.failed.getLsbD 2 = true := by decide

theorem State.control_finish {s : State} (hcode : s.errcode = 0#2) (hrow : s.errrow = 0) : s.finish.Control :=
  State.control_of_noError rfl Status.done_err hcode hrow fun _ => rfl

theorem State.control_begin (s : State) : s.begin.Control :=
  State.control_of_noError rfl Status.running_err rfl rfl fun _ => rfl

theorem State.Control.clearOutcome {s : State} (h : s.Control) (hb : s.busy = false) : s.clearOutcome.Control :=
  State.control_of_noError rfl Status.idle_err rfl rfl fun _ => h.idleWork hb

theorem State.control_reset : State.reset.Control :=
  State.control_of_noError rfl Status.idle_err rfl rfl fun _ => rfl

theorem State.control_takeException (s : State) {code : BitVec 2} (row : Nat) (hcode : code ≠ 0#2) :
    (s.takeException code row).Control :=
  ⟨rfl, fun e => absurd (e.symm.trans Status.failed_err) Bool.false_ne_true, fun _ => hcode, fun _ => rfl⟩

/-- A step that changes only buffers and working registers of a running operation. -/
theorem State.Control.going {s : State} (h : s.Control) (hb : s.busy = true) (m : Memory Bit) (b : Memory Byte) (w : Work) :
    State.Control { s with mask := m, bytes := b, work := w } :=
  h.congr rfl rfl rfl fun e => (State.busy_idle_absurd hb e).elim

theorem State.Control.finishDecode {s : State} (h : s.Control) (hb : s.busy = true) : (finishDecode s).Control := by
  obtain ⟨hcode, hrow⟩ := h.running hb
  unfold Machine.finishDecode
  split
  · exact State.control_takeException _ _ (by decide)
  · exact State.control_finish hcode hrow

/-- Every operation's step keeps the flags legal: it goes on, completes, or raises a format error. -/
theorem opTick_keeps_control {s : State} (h : s.Control) (hb : s.busy = true) (o : Operation) : (opTick o s).Control := by
  obtain ⟨hcode, hrow⟩ := h.running hb
  cases o with
  | extract =>
    rcases extractTick_cases s with ⟨_, e⟩ | ⟨_, _, e⟩ | ⟨_, _, e⟩ <;> rw [opTick, e]
    · exact State.control_finish hcode hrow
    · exact h.going hb _ _ _
    · exact h.going hb _ _ _
  | pack =>
    rcases packTick_cases s with ⟨_, e⟩ | ⟨_, _, e⟩ | ⟨_, _, e⟩ <;> rw [opTick, e]
    · exact State.control_finish hcode hrow
    · exact h.going hb _ _ _
    · exact h.going hb _ _ _
  | encode =>
    rcases encodeTick_cases s with ⟨_, e⟩ | ⟨_, _, e⟩ | ⟨_, _, _, e⟩ | ⟨_, _, _, e⟩ <;> rw [opTick, e]
    · exact State.control_finish hcode hrow
    · exact h.going hb _ _ _
    · exact h.going hb _ _ _
    · exact h.going hb _ _ _
  | decode =>
    rcases decodeTick_cases s with ⟨_, _, e⟩ | ⟨_, _, _, e⟩ | ⟨_, _, _, _, e⟩ | ⟨_, _, _, _, e⟩ <;> rw [opTick, e]
    · exact h.finishDecode hb
    · exact h.going hb _ _ _
    · exact State.control_takeException _ _ (by decide)
    · rw [blockState_eq]; exact h.going hb _ _ _

theorem startState_keeps_control {s : State} (h : s.Control) : (startState s).Control := by
  rcases startState_cases s with ⟨_, e⟩ | ⟨_, _, e⟩ | ⟨_, _, e⟩ <;> rw [e]
  · exact h
  · exact s.control_begin
  · exact State.control_takeException _ _ (by decide)

theorem clearState_keeps_control {s : State} (h : s.Control) : (clearState s).Control := by
  rcases clearState_cases s with ⟨_, e⟩ | ⟨hb, e⟩ <;> rw [e]
  · exact h
  · exact h.clearOutcome hb

theorem State.Control.hostWriteReg {s : State} (h : s.Control) (k v : Nat) : (s.hostWriteReg k v).Control := by
  rcases s.hostWriteReg_cases k v with e | ⟨_, g, e⟩ <;> rw [e]
  · exact h
  · exact h.congr (by simp) (by simp) (by simp) (by simp)

/-- Settles O59, by the induction over a step. -/
theorem stepKeepsLegalFlags : Obligations.StepKeepsLegalFlags :=
  step_keeps
    (hagenda := fun _ _ h => h.congr rfl rfl rfl fun _ => rfl)
    (htick := fun _ o h hb _ => opTick_keeps_control h hb o)
    (hstart := fun _ h => startState_keeps_control h)
    (hclear := fun _ h => clearState_keeps_control h)
    (hwrite := fun _ k v h => h.hostWriteReg k v)
    (hdeliver := fun _ _ h => h.congr rfl rfl rfl fun _ => rfl)
    (hfree := fun _ h => h.congr rfl rfl rfl fun _ => rfl)
    (hpix := fun _ _ _ h _ _ => h.congr rfl rfl rfl fun _ => rfl)
    (hmask := fun _ _ _ h _ _ => h.congr rfl rfl rfl fun _ => rfl)
    (hbytes := fun _ _ _ h _ _ => h.congr rfl rfl rfl fun _ => rfl)
    (hreset := fun _ _ => State.control_reset.congr rfl rfl rfl fun _ => rfl)

end Sys2Proof.Machine
end

section
/-! SUPPORT. Proofs about ranges (R16 to R18, R22, R44, R82): every step keeps registers, working registers and buffer
elements in range. -/

namespace Sys2Proof.Machine

/-! ### Indices and capacities -/

/-- Position `k` of row `r` lies in a plane of `h` rows of `w` positions. -/
theorem rowIndex_lt {r k h w : Nat} (hr : r < h) (hk : k < w) : r * w + k < h * w :=
  calc r * w + k < (r + 1) * w := by rw [Nat.add_mul]; omega
    _ ≤ h * w := Nat.mul_le_mul_right w hr

theorem inCap_of_fits {n i : Nat} {cap : Option Nat} (hfit : fits n cap = true) (hi : i < n) : inCap i cap = true :=
  (inCap_iff i cap).mpr fun c hc => lt_of_lt_of_le hi ((fits_iff n cap).mp hfit c hc)

/-- A length that the capacity admits, and that is at most `W × H`, fits a length register (R82). -/
theorem lt_lenBits_of_fits {p : Params} {cap : Option Nat} (hcap : p.holdsCap cap = true) {n w h : Nat}
    (hfit : fits n cap = true) (hn : n ≤ w * h) (hw : w < 2 ^ p.dimBits) (hh : h < 2 ^ p.dimBits) :
    n < 2 ^ p.lenBits := by
  cases cap with
  | some c => exact lt_of_le_of_lt (of_decide_eq_true hfit) (of_decide_eq_true hcap)
  | none =>
    have hbits : 2 * p.dimBits ≤ p.lenBits := of_decide_eq_true hcap
    calc n ≤ w * h := hn
      _ < 2 ^ p.dimBits * 2 ^ p.dimBits := Nat.mul_lt_mul'' hw hh
      _ = 2 ^ (2 * p.dimBits) := by rw [← Nat.pow_add, Nat.two_mul]
      _ ≤ 2 ^ p.lenBits := Nat.pow_le_pow_right (by decide) hbits

theorem params_wf_iff (p : Params) :
    p.wf = true ↔ 1 ≤ p.dimBits ∧ p.holdsCap p.pixCap = true ∧ p.holdsCap p.maskCap = true
      ∧ p.holdsCap p.bytesCap = true := by
  simp only [Params.wf, Bool.and_eq_true, decide_eq_true_eq, and_assoc]

/-! ### The checks of the operation that runs -/

section
variable {s : State}

theorem contractOk_extract (ho : s.operation = some .extract) : s.contractOk = s.extractContract := by
  unfold State.contractOk; rw [ho]

theorem contractOk_pack (ho : s.operation = some .pack) : s.contractOk = s.packContract := by
  unfold State.contractOk; rw [ho]

theorem contractOk_encode (ho : s.operation = some .encode) : s.contractOk = s.encodeContract := by
  unfold State.contractOk; rw [ho]

theorem contractOk_decode (ho : s.operation = some .decode) : s.contractOk = s.decodeContract := by
  unfold State.contractOk; rw [ho]

theorem extractContract_iff :
    s.extractContract = true ↔ s.pixLen = s.width * s.height ∧ fits s.pixLen s.params.pixCap = true
      ∧ fits (s.width * s.height) s.params.maskCap = true := by
  simp only [State.extractContract, Bool.and_eq_true, decide_eq_true_eq, and_assoc]
  rfl

theorem packContract_iff :
    s.packContract = true ↔ s.maskLen = s.width * s.height ∧ fits s.maskLen s.params.maskCap = true
      ∧ fits (s.height * packedLen s.width) s.params.bytesCap = true := by
  simp only [State.packContract, Bool.and_eq_true, decide_eq_true_eq, and_assoc]
  rfl

theorem encodeContract_iff :
    s.encodeContract = true ↔ s.maskLen = s.width * s.height ∧ fits s.maskLen s.params.maskCap = true
      ∧ fits (s.height * encodedMax s.width) s.params.bytesCap = true := by
  simp only [State.encodeContract, Bool.and_eq_true, decide_eq_true_eq, and_assoc]
  rfl

theorem decodeContract_iff :
    s.decodeContract = true ↔ fits s.bytesLen s.params.bytesCap = true
      ∧ fits (s.width * s.height) s.params.maskCap = true := by
  simp only [State.decodeContract, State.area, Bool.and_eq_true]

/-! ### The bound on the output pointer, per operation -/

theorem wpBound_extract (ho : s.operation = some .extract) : s.wpBound = 0 := by
  unfold State.wpBound; rw [ho]

theorem wpBound_decode (ho : s.operation = some .decode) : s.wpBound = 0 := by
  unfold State.wpBound; rw [ho]

theorem wpBound_pack (ho : s.operation = some .pack) :
    s.wpBound = if s.work.r < s.height then s.work.r * packedLen s.width + s.work.j
      else s.height * packedLen s.width := by
  unfold State.wpBound; rw [ho]

theorem wpBound_encode (ho : s.operation = some .encode) :
    s.wpBound = if s.work.r < s.height then s.work.r * encodedMax s.width + encodedSoFar s.work.x s.width
      else s.height * encodedMax s.width := by
  unfold State.wpBound; rw [ho]

theorem le_wpBound_pack {n : Nat} (ho : s.operation = some .pack)
    (hrow : s.work.r < s.height → n ≤ s.work.r * packedLen s.width + s.work.j)
    (hend : s.height ≤ s.work.r → n ≤ s.height * packedLen s.width) : n ≤ s.wpBound := by
  rw [wpBound_pack ho]
  split
  · exact hrow ‹_›
  · exact hend (Nat.not_lt.mp ‹_›)

theorem le_wpBound_encode {n : Nat} (ho : s.operation = some .encode)
    (hrow : s.work.r < s.height → n ≤ s.work.r * encodedMax s.width + encodedSoFar s.work.x s.width)
    (hend : s.height ≤ s.work.r → n ≤ s.height * encodedMax s.width) : n ≤ s.wpBound := by
  rw [wpBound_encode ho]
  split
  · exact hrow ‹_›
  · exact hend (Nat.not_lt.mp ‹_›)

end

theorem encodedSoFar_le (x W : Nat) : encodedSoFar x W ≤ encodedMax W := by
  unfold encodedSoFar encodedMax ceilDiv Config.window
  split <;> omega

theorem encodedSoFar_lt {x W : Nat} (h : x < W) : encodedSoFar x W < encodedMax W := by
  unfold encodedSoFar encodedMax ceilDiv Config.window
  rw [if_pos h]; omega

/-- A block that covers the window, or reaches the row end, makes room for its byte (R106 to R108). -/
theorem encodedSoFar_block {x y W : Nat} (hx : x < W) (hy : x + 7 ≤ y ∨ W ≤ y) :
    encodedSoFar x W + 1 ≤ encodedSoFar y W := by
  have hlt := encodedSoFar_lt hx
  by_cases hyW : y < W
  · unfold encodedSoFar Config.window
    rw [if_pos hx, if_pos hyW]; omega
  · unfold encodedSoFar at hlt ⊢
    rw [if_neg hyW]; exact hlt

/-! ### Everything in its range -/

/-- The state once no operation runs: the checks and the working registers ask nothing. -/
theorem State.InRange.of_idle {t : State} (hb : t.busy = false) (hp : t.params.wf = true) (hw : t.Widths)
    (hpix : t.pix.below t.params.pixCap = true) (hmask : t.mask.below t.params.maskCap = true)
    (hbytes : t.bytes.below t.params.bytesCap = true) : t.InRange :=
  ⟨hp, hw, hpix, hmask, hbytes, fun e => (State.busy_idle_absurd e hb).elim,
    fun e => (State.busy_idle_absurd e hb).elim⟩

/-- A step that goes on: an output buffer and the working registers change, and stay in range. -/
theorem State.InRange.going {s : State} (h : s.InRange) (hb : s.busy = true) {m : Memory Bit} {b : Memory Byte} {w : Work}
    (hmask : m.below s.params.maskCap = true) (hbytes : b.below s.params.bytesCap = true)
    (hw : State.WorkRanges { s with mask := m, bytes := b, work := w }) :
    State.InRange { s with mask := m, bytes := b, work := w } :=
  ⟨h.params, { h.widths with }, h.pix, hmask, hbytes, fun _ => h.contract hb, fun _ => hw⟩

theorem State.InRange.finishBytes {s : State} (h : s.InRange) (hl : s.work.wp < 2 ^ s.params.lenBits) :
    (finishBytes s).InRange :=
  .of_idle (finishBytes_busy s) h.params { h.widths with bytesLen := hl } h.pix h.mask h.bytes

theorem State.InRange.raiseFormat {s : State} (h : s.InRange) (code : BitVec 2) {row : Nat} (hrow : row ≤ s.height)
    (hbc : s.work.bc ≤ s.bytesLen) : (s.raiseFormat code row).InRange :=
  .of_idle (s.raiseFormat_busy code row) h.params
    { h.widths with
      errrow := lt_of_le_of_lt hrow h.widths.height
      maskLen := Nat.two_pow_pos _
      consumed := lt_of_le_of_lt hbc h.widths.bytesLen }
    h.pix rfl h.bytes

/-! ### One step of `EXTRACT`, `PACK` and `DECODE` -/

theorem extractTick_keeps_inRange {s : State} (h : s.InRange) (hb : s.busy = true) (ho : s.operation = some .extract) :
    (extractTick s).InRange := by
  obtain ⟨hlen, _, hfit⟩ := extractContract_iff.mp (contractOk_extract ho ▸ h.contract hb)
  have hw := h.work hb
  have hwp : s.work.wp ≤ 0 := wpBound_extract ho ▸ hw.wp
  rcases extractTick_cases s with ⟨_, e⟩ | ⟨hr, _, e⟩ | ⟨hr, hcol, e⟩ <;> rw [e]
  · exact .of_idle (finishExtract_busy s) h.params
      { h.widths with maskLen := lt_of_eq_of_lt hlen.symm h.widths.pixLen } h.pix h.mask h.bytes
  · exact h.going hb h.mask h.bytes { hw with r := hr, c := Nat.zero_le _, wp := le_trans hwp (Nat.zero_le _) }
  · have hcell : inCap (s.index s.work.r s.work.c) s.params.maskCap = true :=
      inCap_of_fits hfit (Nat.mul_comm s.height s.width ▸ rowIndex_lt hr hcol)
    exact h.going hb (Memory.below_write _ hcell h.mask) h.bytes
      { hw with c := hcol, wp := le_trans hwp (Nat.zero_le _) }

theorem packTick_keeps_inRange {s : State} (h : s.InRange) (hb : s.busy = true) (ho : s.operation = some .pack) :
    (packTick s).InRange := by
  obtain ⟨_, _, hfit⟩ := packContract_iff.mp (contractOk_pack ho ▸ h.contract hb)
  obtain ⟨_, _, _, hcap⟩ := (params_wf_iff s.params).mp h.params
  have hw := h.work hb
  have hwp := wpBound_pack ho ▸ hw.wp
  have hop : s.op ≠ 3#3 := by rw [(operation_pack s).mp ho]; decide
  rcases packTick_cases s with ⟨hr, e⟩ | ⟨hr, _, e⟩ | ⟨hr, hj, e⟩ <;> rw [e]
  · rw [if_neg (by omega)] at hwp
    refine h.finishBytes (lt_of_le_of_lt hwp (lt_lenBits_of_fits hcap hfit ?_ h.widths.width h.widths.height))
    exact Nat.mul_comm s.width s.height ▸ Nat.mul_le_mul_left _ (packedLen_le _)
  · rw [if_pos hr] at hwp
    have hnext : s.work.wp ≤ (s.work.r + 1) * packedLen s.width :=
      Nat.succ_mul _ _ ▸ hwp.trans (Nat.add_le_add_left hw.j _)
    exact h.going hb h.mask h.bytes
      { hw with
        r := hr
        j := Nat.zero_le _
        wp := le_wpBound_pack ho (fun _ => hnext) (fun _ => hnext.trans (Nat.mul_le_mul_right _ hr)) }
  · rw [if_pos hr] at hwp
    have hbyte : inCap s.work.wp s.params.bytesCap = true := inCap_of_fits hfit (lt_of_le_of_lt hwp (rowIndex_lt hr hj))
    exact h.going hb h.mask (Memory.below_write _ hbyte h.bytes)
      { hw with
        j := hj
        wp := le_wpBound_pack ho (fun _ => Nat.succ_le_succ hwp) (fun hend => absurd hr (Nat.not_lt.mpr hend))
        wlLow := fun e => absurd e hop }

theorem decodeTick_keeps_inRange {s : State} (h : s.InRange) (hb : s.busy = true) (ho : s.operation = some .decode) :
    (decodeTick s).InRange := by
  obtain ⟨_, hfit⟩ := decodeContract_iff.mp (contractOk_decode ho ▸ h.contract hb)
  obtain ⟨_, _, hcap, _⟩ := (params_wf_iff s.params).mp h.params
  have hw := h.work hb
  have hwp : s.work.wp ≤ 0 := wpBound_decode ho ▸ hw.wp
  rcases decodeTick_cases s with ⟨_, _, e⟩ | ⟨hr, hbuf, _, e⟩ | ⟨hr, _, _, _, e⟩ | ⟨_, hbuf, hbc, _, e⟩ <;> rw [e]
  · unfold finishDecode
    split
    · exact h.raiseFormat _ le_rfl hw.bc
    · exact .of_idle (State.finish_busy _) h.params
        { h.widths with
          maskLen := lt_lenBits_of_fits hcap hfit le_rfl h.widths.width h.widths.height
          consumed := lt_of_le_of_lt hw.bc h.widths.bytesLen }
        h.pix h.mask h.bytes
  · have hrow : ∀ k, k < (s.work.buf.take s.width).length → inCap (s.index s.work.r 0 + k) s.params.maskCap = true := by
      intro k hk
      rw [List.length_take_of_le hbuf] at hk
      exact inCap_of_fits hfit (Nat.mul_comm s.height s.width ▸ rowIndex_lt hr hk)
    exact h.going hb (Memory.below_writeAll _ hrow h.mask) h.bytes
      { hw with r := hr, bc0 := le_rfl, buf := Nat.zero_le _, wp := le_trans hwp (Nat.zero_le _) }
  · exact h.raiseFormat _ hr.le hw.bc
  · obtain ⟨_, hbits⟩ := blockBits_length s.fetchByte
    rw [blockState_eq]
    refine h.going hb h.mask h.bytes
      { hw with bc := hbc, bc0 := Nat.le_succ_of_le hw.bc0, buf := ?_, wp := le_trans hwp (Nat.zero_le _) }
    simp only [State.fetched, State.withWork_work, List.length_append]
    omega

/-! ### One step of `ENCODE` -/

/-- The scan of a uniform window (R97): it passes the cursor and stays in the row, and the Run it gives covers the window
or ends the row (R106). -/
theorem runScan_bounds {R : Row} {x : Nat} (hx : x < R.length) (hu : uniformAt R x = true) :
    x < runEnd R x (bitAt R x) ∧ runEnd R x (bitAt R x) ≤ R.length
      ∧ (x + 7 ≤ x + min 64 (runEnd R x (bitAt R x) - x) ∨ R.length ≤ x + min 64 (runEnd R x (bitAt R x) - x)) := by
  have hge := runEnd_ge_window hx hu
  obtain ⟨_, hle, _, _⟩ := runEnd_spec R (bitAt R x) hx.le
  omega

theorem windowLen_pos {x W : Nat} (hx : x < W) : 1 ≤ windowLen x W :=
  Nat.le_min.mpr ⟨by decide, Nat.sub_pos_of_lt hx⟩

section
variable {s : State} (hw : s.WorkRanges) (ho : s.operation = some .encode) (hr : s.work.r < s.height)
  (hx : s.work.x < s.width)
include hw ho hr hx

/-- The bound on the output pointer after a block that covers the window or ends the row. -/
theorem wp_succ_le {y : Nat} (hy : s.work.x + 7 ≤ y ∨ s.width ≤ y) :
    s.work.wp + 1 ≤ s.work.r * encodedMax s.width + encodedSoFar y s.width := by
  have hwp := hw.wp
  rw [wpBound_encode ho, if_pos hr] at hwp
  have hblock := encodedSoFar_block hx hy
  omega

theorem emitRun_keeps_workRanges (hu : uniformAt (s.row s.work.r) s.work.x = true) :
    (emitRun s (s.row s.work.r)).WorkRanges := by
  obtain ⟨hxd, hdW, hcov⟩ := runScan_bounds (by simpa using hx) hu
  rw [State.row_length] at hdW hcov
  have hlen := s.row_length s.work.r
  exact
    { r := hw.r, bc := hw.bc, bc0 := hw.bc0, buf := hw.buf, j := hw.j, c := hw.c
      x := show s.work.x + min 64 _ ≤ s.width by omega
      wl := Nat.min_le_left _ _
      d := hdW
      run := Nat.min_le_left _ _
      wp := le_wpBound_encode ho (fun _ => wp_succ_le hw ho hr hx hcov) (fun hend => absurd hr (Nat.not_lt.mpr hend))
      wlLow := fun _ _ => windowLen_pos (hlen.symm ▸ hx)
      runLow := fun _ => Nat.le_min.mpr ⟨by decide, Nat.sub_pos_of_lt hxd⟩
      dLow := (Nat.min_le_right _ _).trans (Nat.sub_le _ _) }

theorem emitLit_keeps_workRanges : (emitLit s (s.row s.work.r)).WorkRanges := by
  have hlen := s.row_length s.work.r
  have hcov : s.work.x + 7 ≤ min (s.work.x + 7) (s.row s.work.r).length
      ∨ s.width ≤ min (s.work.x + 7) (s.row s.work.r).length := by omega
  exact
    { hw with
      x := hlen ▸ Nat.min_le_right _ _
      wl := Nat.min_le_left _ _
      wp := le_wpBound_encode ho (fun _ => wp_succ_le hw ho hr hx hcov) (fun hend => absurd hr (Nat.not_lt.mpr hend))
      wlLow := fun _ _ => windowLen_pos (hlen.symm ▸ hx) }

end

theorem encodeTick_keeps_inRange {s : State} (h : s.InRange) (hb : s.busy = true) (ho : s.operation = some .encode) :
    (encodeTick s).InRange := by
  obtain ⟨_, _, hfit⟩ := encodeContract_iff.mp (contractOk_encode ho ▸ h.contract hb)
  obtain ⟨_, _, _, hcap⟩ := (params_wf_iff s.params).mp h.params
  have hw := h.work hb
  have hwp := wpBound_encode ho ▸ hw.wp
  have hbyte : s.work.r < s.height → s.work.x < s.width → inCap s.work.wp s.params.bytesCap = true := by
    intro hr hx
    rw [if_pos hr] at hwp
    exact inCap_of_fits hfit (lt_of_le_of_lt hwp (rowIndex_lt hr (encodedSoFar_lt hx)))
  rcases encodeTick_cases s with ⟨hr, e⟩ | ⟨hr, _, e⟩ | ⟨hr, hx, hu, e⟩ | ⟨hr, hx, _, e⟩ <;> rw [e]
  · rw [if_neg (by omega)] at hwp
    refine h.finishBytes (lt_of_le_of_lt hwp (lt_lenBits_of_fits hcap hfit ?_ h.widths.width h.widths.height))
    exact Nat.mul_comm s.width s.height ▸ Nat.mul_le_mul_left _ (encodedMax_le _)
  · rw [if_pos hr] at hwp
    have hnext : s.work.wp ≤ (s.work.r + 1) * encodedMax s.width :=
      Nat.succ_mul _ _ ▸ hwp.trans (Nat.add_le_add_left (encodedSoFar_le _ _) _)
    exact h.going hb h.mask h.bytes
      { hw with
        r := hr
        x := Nat.zero_le _
        wp := le_wpBound_encode ho (fun _ => Nat.le_add_right_of_le hnext)
          (fun _ => hnext.trans (Nat.mul_le_mul_right _ hr)) }
  · exact h.going hb h.mask (Memory.below_write _ (hbyte hr hx) h.bytes) (emitRun_keeps_workRanges hw ho hr hx hu)
  · exact h.going hb h.mask (Memory.below_write _ (hbyte hr hx) h.bytes) (emitLit_keeps_workRanges hw ho hr hx)

/-- Every operation's step keeps everything in its range. -/
theorem opTick_keeps_inRange {s : State} (h : s.InRange) (hb : s.busy = true) {o : Operation}
    (ho : s.operation = some o) : (opTick o s).InRange := by
  cases o with
  | extract => exact extractTick_keeps_inRange h hb ho
  | pack => exact packTick_keeps_inRange h hb ho
  | encode => exact encodeTick_keeps_inRange h hb ho
  | decode => exact decodeTick_keeps_inRange h hb ho

/-! ### The commands, the host's accesses and reset -/

/-- The working registers `START` gives are in range, whatever the operation. -/
theorem State.begin_workRanges (s : State) : s.begin.WorkRanges where
  r := Nat.zero_le _
  x := Nat.zero_le _
  wl := Nat.zero_le _
  d := Nat.zero_le _
  run := Nat.zero_le _
  wp := Nat.zero_le _
  bc := Nat.zero_le _
  bc0 := le_rfl
  buf := Nat.zero_le _
  j := Nat.zero_le _
  c := Nat.zero_le _
  wlLow := fun _ hwp => absurd hwp (Nat.lt_irrefl 0)
  runLow := fun hd => absurd hd (Nat.lt_irrefl 0)
  dLow := le_rfl

theorem startState_keeps_inRange {s : State} (h : s.InRange) : (startState s).InRange := by
  rcases startState_cases s with ⟨_, e⟩ | ⟨_, hc, e⟩ | ⟨_, _, e⟩ <;> rw [e]
  · exact h
  · exact ⟨h.params, { h.widths with errrow := Nat.two_pow_pos _ }, h.pix, h.mask, h.bytes,
      fun _ => (contractOk_iff s).mpr hc, fun _ => s.begin_workRanges⟩
  · exact .of_idle (State.takeException_busy _ _ _) h.params { h.widths with errrow := Nat.two_pow_pos _ }
      h.pix h.mask h.bytes

theorem clearState_keeps_inRange {s : State} (h : s.InRange) : (clearState s).InRange := by
  rcases clearState_cases s with ⟨_, e⟩ | ⟨_, e⟩ <;> rw [e]
  · exact h
  · exact .of_idle s.clearOutcome_busy h.params { h.widths with errrow := Nat.two_pow_pos _ } h.pix h.mask h.bytes

/-- A register holds a value of its width after a host write (R32). -/
theorem State.Widths.setReg {s : State} (h : s.Widths) (v : Nat) (g : Reg) : (s.setReg v g).Widths := by
  have cut : ∀ n, v % 2 ^ n < 2 ^ n := fun n => Nat.mod_lt _ (Nat.two_pow_pos n)
  cases g with
  | width => exact { h with width := cut _ }
  | height => exact { h with height := cut _ }
  | pixLen => exact { h with pixLen := cut _ }
  | maskLen => exact { h with maskLen := cut _ }
  | bytesLen => exact { h with bytesLen := cut _ }
  | op | target | mode | consumed | status | errcode | errrow | cmd => exact { h with }

theorem State.InRange.hostWriteReg {s : State} (h : s.InRange) (k v : Nat) : (s.hostWriteReg k v).InRange := by
  rcases s.hostWriteReg_cases k v with e | ⟨hb, g, e⟩ <;> rw [e]
  · exact h
  · exact .of_idle ((s.setReg_busy v g).trans hb) (by simpa using h.params) (h.widths.setReg v g)
      (by simpa using h.pix) (by simpa using h.mask) (by simpa using h.bytes)

@[simp] theorem State.resetCore_busy (s : State) : s.resetCore.busy = false := Status.idle_busy

theorem State.InRange.resetCore {s : State} (h : s.InRange) : s.resetCore.InRange :=
  have hzero : ∀ n, 0 < 2 ^ n := Nat.two_pow_pos
  .of_idle s.resetCore_busy h.params ⟨hzero _, hzero _, hzero _, hzero _, hzero _, hzero _, hzero _⟩ rfl rfl rfl

/-- The model's own fields (moves, last read, next free value) are in no range. -/
theorem State.InRange.ownFields {s : State} (h : s.InRange) (ms : List Move) (d : Datum) (n : Nat) :
    State.InRange { s with agenda := ms, lastRead := d, fresh := n } :=
  ⟨h.params, { h.widths with }, h.pix, h.mask, h.bytes, h.contract, fun hb => { h.work hb with }⟩

/-- Settles O60, by the induction over a step. -/
theorem stepKeepsRanges : Obligations.StepKeepsRanges :=
  step_keeps
    (hagenda := fun _ ms h => h.ownFields ms _ _)
    (htick := fun _ _ h hb ho => opTick_keeps_inRange h hb ho)
    (hstart := fun _ h => startState_keeps_inRange h)
    (hclear := fun _ h => clearState_keeps_inRange h)
    (hwrite := fun _ k v h => h.hostWriteReg k v)
    (hdeliver := fun _ d h => h.ownFields _ d _)
    (hfree := fun _ h => h.ownFields _ _ _)
    (hpix := fun _ _ p h hb hi =>
      .of_idle hb h.params { h.widths with } (Memory.below_write p hi h.pix) h.mask h.bytes)
    (hmask := fun _ _ b h hb hi =>
      .of_idle hb h.params { h.widths with } h.pix (Memory.below_write b hi h.mask) h.bytes)
    (hbytes := fun _ _ b h hb hi =>
      .of_idle hb h.params { h.widths with } h.pix h.mask (Memory.below_write b hi h.bytes))
    (hreset := fun _ h => h.resetCore)

end Sys2Proof.Machine
end

section
/-! SUPPORT. Proofs about one emitting step of `ENCODE` (R94 to R99), in the bits of the mask. -/

namespace Sys2Proof.Machine

section
variable (s : State) (r : Nat)

/-- The bit of a row of the grid at a position is the mask's bit there (R42). -/
theorem bitAt_row {i : Nat} (hi : i < s.width) : bitAt (s.row r) i = s.maskAt (r * s.width + i) := by
  simp [bitAt, State.row, State.index, hi]

/-- The window of a row of the grid is uniform where the mask's bits are (R95). -/
theorem uniformAt_row_iff {x : Nat} (hx : x < s.width) :
    uniformAt (s.row r) x = true ↔
      ∀ i, i < min 7 (s.width - x) → s.maskAt (r * s.width + (x + i)) = s.maskAt (r * s.width + x) := by
  rw [uniformAt_iff, State.row_length, bitAt_row s r hx]
  refine forall₂_congr fun i hi => ?_
  rw [bitAt_row s r (by omega)]

/-- The run scan of a row of the grid, in the mask's bits (R97). -/
theorem runEnd_row {x : Nat} (hx : x < s.width) (V : Bit) :
    (∀ j, x ≤ j → j < runEnd (s.row r) x V → s.maskAt (r * s.width + j) = V)
      ∧ (runEnd (s.row r) x V = s.width ∨ s.maskAt (r * s.width + runEnd (s.row r) x V) ≠ V) := by
  obtain ⟨_, hle, hall, hstop⟩ := runEnd_spec (s.row r) V (x := x) (by simpa using hx.le)
  rw [State.row_length] at hle hstop
  refine ⟨fun j hxj hj => ?_, ?_⟩
  · have hbit := hall (j - x) (by omega)
    rwa [Nat.add_sub_cancel' hxj, bitAt_row s r (by omega)] at hbit
  · rcases hle.eq_or_lt with heq | hlt
    · exact .inl heq
    · exact .inr (bitAt_row s r hlt ▸ hstop hlt)

end

/-- Settles O27: the step emits a Run where the window is uniform and a Literal where it is not. -/
theorem encodeStepWritesWork : Obligations.EncodeStepWritesWork := by
  intro s ha hb hop hr hx
  have hlen := s.row_length s.work.r
  have hwin : 1 ≤ windowLen s.work.x (s.row s.work.r).length := windowLen_pos (hlen.symm ▸ hx)
  have hwl : windowLen s.work.x (s.row s.work.r).length = min 7 (s.width - s.work.x) := by rw [hlen]; rfl
  have hstep : step s = .next (encodeTick s) :=
    (step_of_no_move ha).trans (coreTurn_operation hb ((operation_encode s).mpr hop))
  refine ⟨_, hstep, ?_⟩
  rw [← uniformAt_row_iff s s.work.r hx]
  rcases encodeTick_cases s with ⟨hend, _⟩ | ⟨_, hend, _⟩ | ⟨_, _, hu, e⟩ | ⟨_, _, hu, e⟩
  · omega
  · omega
  · obtain ⟨hxd, hdW, hcov⟩ := runScan_bounds (hlen.symm ▸ hx) hu
    obtain ⟨hall, hstop⟩ := runEnd_row s s.work.r hx (bitAt (s.row s.work.r) s.work.x)
    rw [hlen] at hdW hcov
    rw [e]
    refine ⟨hwl, hwin, Nat.min_le_left _ _, ?_, ?_, rfl, fun _ => ?_, fun hmixed => absurd hu hmixed⟩
    · show s.work.x < s.work.x + min 64 _
      omega
    · show s.work.x + min 64 _ ≤ s.width
      omega
    · exact ⟨bitAt_row s s.work.r hx, hxd, hdW, hall, hstop, rfl,
        Nat.le_min.mpr ⟨by decide, Nat.sub_pos_of_lt hxd⟩, Nat.min_le_left _ _, rfl⟩
  · rw [e, hu]
    have hcur : (emitLit s (s.row s.work.r)).work.x = min (s.work.x + 7) s.width := congrArg (min _) hlen
    refine ⟨hwl, hwin, Nat.min_le_left _ _, ?_, ?_, rfl, fun huni => absurd huni Bool.false_ne_true,
      fun _ => ⟨hcur, rfl, rfl, rfl⟩⟩
    · rw [hcur]; omega
    · rw [hcur]; omega

end Sys2Proof.Machine
end

section
/-! SUPPORT. Proofs about what an operation leaves alone (R34, R45, R155), and what makes an idle core busy (R37). -/

namespace Sys2Proof.Machine

/-! ### An operation's execution writes its outputs alone -/

/-- `t` with the outputs of `EXTRACT` as they are in `s`. -/
def State.withExtractOutputs (s t : State) : State :=
  { t with work := s.work, status := s.status, mask := s.mask, maskLen := s.maskLen }

/-- `t` with the outputs of `PACK` and `ENCODE` as they are in `s`. -/
def State.withBytesOutputs (s t : State) : State :=
  { t with work := s.work, status := s.status, bytes := s.bytes, bytesLen := s.bytesLen }

/-- `t` with the outputs of `DECODE` as they are in `s`. -/
def State.withDecodeOutputs (s t : State) : State :=
  { t with
    work := s.work, status := s.status, mask := s.mask, maskLen := s.maskLen, consumed := s.consumed,
    errcode := s.errcode, errrow := s.errrow, fresh := s.fresh }

/-- A frame of every step of an operation is a frame of its whole run: where putting the outputs back undoes a step, it
undoes the run. -/
theorem runToEnd_frame {tick : State → State} {putBack : State → State → State}
    (hself : ∀ s, putBack s s = s) (htwice : ∀ s u t, putBack s (putBack u t) = putBack s t)
    (htick : ∀ s, putBack s (tick s) = s) (s : State) : putBack s (runToEnd tick s) = s := by
  refine runBusy_keeps (P := fun t => putBack s t = s) (fun t _ ht => ?_) _ (hself s)
  rw [← htwice s t, htick t, ht]

/-- Settles O47, from the frame of each operation's step. -/
theorem operationsWriteOnlyTheirOutputs : Obligations.OperationsWriteOnlyTheirOutputs := by
  intro s t
  refine ⟨fun h => ?_, fun h => ?_, fun h => ?_, fun h => ?_⟩ <;> cases h
  · exact runToEnd_frame (putBack := State.withExtractOutputs) (fun _ => rfl) (fun _ _ _ => rfl) extractTick_frame s
  · exact runToEnd_frame (putBack := State.withBytesOutputs) (fun _ => rfl) (fun _ _ _ => rfl) packTick_frame s
  · exact runToEnd_frame (putBack := State.withBytesOutputs) (fun _ => rfl) (fun _ _ _ => rfl) encodeTick_frame s
  · exact runToEnd_frame (putBack := State.withDecodeOutputs) (fun _ => rfl) (fun _ _ _ => rfl) decodeTick_frame s

/-! ### What a running operation leaves alone -/

/-- The configuration registers, the raster and the parameters. -/
def State.config (s : State) : BitVec 3 × Nat × Nat × BitVec 24 × BitVec 1 × Nat × Memory Pixel × Params :=
  (s.op, s.width, s.height, s.target, s.mode, s.pixLen, s.pix, s.params)

theorem State.config_eq_iff {s t : State} :
    t.config = s.config ↔ t.op = s.op ∧ t.width = s.width ∧ t.height = s.height ∧ t.target = s.target
      ∧ t.mode = s.mode ∧ t.pixLen = s.pixLen ∧ t.pix = s.pix ∧ t.params = s.params := by
  simp only [State.config, Prod.mk.injEq]

theorem opTick_config (o : Operation) (s : State) : (opTick o s).config = s.config := by
  cases o with
  | extract => exact (congrArg State.config (extractTick_frame s) :)
  | pack => exact (congrArg State.config (packTick_frame s) :)
  | encode => exact (congrArg State.config (encodeTick_frame s) :)
  | decode => exact (congrArg State.config (decodeTick_frame s) :)

theorem runToEnd_config (o : Operation) (s : State) : (runToEnd (opTick o) s).config = s.config :=
  runBusy_keeps (P := fun t => t.config = s.config) (fun t _ ht => (opTick_config o t).trans ht) _ rfl

theorem coreTurn_config {s t : State} (h : coreTurn s = .next t) : t.config = s.config := by
  rcases coreTurn_cases s with e | ⟨o, _, _, e⟩ <;> rw [e] at h <;> cases h
  · rfl
  · exact opTick_config o s

theorem coreToEnd_config {s t : State} (h : coreToEnd s = .next t) : t.config = s.config := by
  rcases coreToEnd_cases s with e | ⟨o, _, _, e⟩ <;> rw [e] at h <;> cases h
  · rfl
  · exact runToEnd_config o s

theorem Move.run_config {m : Move} {s t : State} (hb : s.busy = true) (hm : m ≠ .reset) (h : m.run s = .next t) :
    t.config = s.config := by
  rcases Move.run_next_cases h with ⟨k, v, _, hw⟩ | ⟨_, _, e⟩ | ⟨hidle, _⟩ | ⟨_, e⟩ | ⟨_, e⟩ | ⟨hreset, _⟩
  · rw [hostWriteRegister_of_busy hb] at hw; cases hw; rfl
  · rw [e]; rfl
  · exact (State.busy_idle_absurd hb hidle).elim
  · exact coreTurn_config e
  · exact coreToEnd_config e
  · exact absurd hreset hm

/-- Settles O48, by the moves that can come next. -/
theorem busyStepKeepsConfiguration : Obligations.BusyStepKeepsConfiguration := by
  intro s t hb hnoReset h
  rw [← State.config_eq_iff]
  cases ha : s.agenda with
  | nil => exact coreTurn_config ((step_of_no_move ha).symm.trans h)
  | cons m ms =>
    rw [step_of_move ha] at h
    exact Move.run_config (s := { s with agenda := ms }) hb (fun hm => hnoReset ms (hm ▸ ha)) h

/-! ### What makes an idle core busy -/

/-- A register write that makes an idle core busy writes `CMD` with bit 0 set, and the checks pass. -/
theorem hostWriteRegister_makes_busy {k v : Nat} {s t : State} (hb : s.busy = false)
    (h : hostWriteRegister k v s = .next t) (ht : t.busy = true) : k = 12 ∧ v % 2 = 1 ∧ s.MeetsContract := by
  by_cases hk : k = 12
  · subst hk
    rw [hostWriteRegister_cmd] at h
    cases h
    have hcleared : ((if v / 2 % 2 = 1 then clearState else id) s).busy = false := by
      split
      · rw [clearState_busy, hb]
      · exact hb
    by_cases hstart : v % 2 = 1
    · rw [if_pos hstart] at ht
      have hc := meetsContract_of_startState_busy hcleared ht
      refine ⟨rfl, hstart, ?_⟩
      split at hc
      · exact (clearState_meetsContract_iff s).mp hc
      · exact hc
    · rw [if_neg hstart] at ht
      exact (State.busy_idle_absurd ht hcleared).elim
  · rw [hostWriteRegister_of_ne hk] at h
    cases h
    exact (State.busy_idle_absurd ht ((s.hostWriteReg_busy k v).trans hb)).elim

/-- Of all moves only a write to `CMD` with bit 0 set makes an idle core busy, and the checks pass. -/
theorem Move.run_makes_busy {m : Move} {s t : State} (hb : s.busy = false) (h : m.run s = .next t)
    (ht : t.busy = true) : ∃ v, m = .writeReg 12 v ∧ v % 2 = 1 ∧ s.MeetsContract := by
  have stays : t.busy = s.busy → False := fun e => State.busy_idle_absurd (e.symm.trans ht) hb
  rcases Move.run_next_cases h with ⟨k, v, hm, hw⟩ | ⟨_, _, e⟩ | ⟨_, _, _, _, e⟩ | ⟨_, e⟩ | ⟨_, e⟩ | ⟨_, e⟩
  · obtain ⟨rfl, hv, hc⟩ := hostWriteRegister_makes_busy hb hw ht
    exact ⟨v, hm, hv, hc⟩
  · exact (stays (e ▸ rfl)).elim
  · exact (stays (e ▸ rfl)).elim
  · rw [coreTurn_nothing (.inl hb)] at e; cases e; exact (stays rfl).elim
  · unfold coreToEnd at e; rw [hb] at e; cases e; exact (stays rfl).elim
  · exact (State.busy_idle_absurd ht (e ▸ s.resetCore_busy)).elim

/-- Settles O20, by the moves that can come next. -/
theorem onlyStartMakesBusy : Obligations.OnlyStartMakesBusy := by
  intro s t hb h ht
  cases ha : s.agenda with
  | nil =>
    rw [step_of_no_move ha, coreTurn_nothing (.inl hb)] at h
    cases h
    exact (State.busy_idle_absurd ht hb).elim
  | cons m ms =>
    rw [step_of_move ha] at h
    obtain ⟨v, rfl, hv, hc⟩ := Move.run_makes_busy (s := { s with agenda := ms }) hb h ht
    exact ⟨v, ms, rfl, hv, hc⟩

end Sys2Proof.Machine
end

section
/-! SUPPORT. Proofs about reset, a step's dispatch, `START`, and the host's accesses one by one (R22, R31, R32, R37, R151
to R156). -/

namespace Sys2Proof.Machine

/-! ### Reset -/

/-- The values of the registers after reset (R22, R37). -/
theorem State.reset_regValue (g : Reg) : State.reset.regValue g = if g = .mode then 1 else 0 := by cases g <;> rfl

theorem State.reset_busy : State.reset.busy = false := Status.idle_busy

/-- Settles O1: a number names a register, whose value is its reset value, or none. -/
theorem resetLeavesStatedValues : Obligations.ResetLeavesStatedValues := by
  refine ⟨fun k => ?_, rfl, fun _ => ⟨rfl, rfl, rfl⟩, rfl⟩
  have hmode : k = 4 ↔ Reg.ofNum k = some .mode := (Reg.ofNum_eq_some_iff (g := .mode)).symm
  cases hk : Reg.ofNum k with
  | none =>
    rw [State.hostReadReg_of_none hk, if_neg (by simp [hmode, hk])]
    rfl
  | some g =>
    rw [State.hostReadReg_of_value hk (.inl State.reset_busy), State.reset_regValue]
    simp only [hmode, hk, Option.some.injEq]
    rfl

/-- Settles O2: on the idle core only the values of the fields remain to be compared. -/
theorem resetMeetsInvariants : Obligations.ResetMeetsInvariants := by
  have hzero : ∀ n, 0 < 2 ^ n := Nat.two_pow_pos
  exact ⟨⟨rfl, rfl, rfl⟩, State.control_reset,
    .of_idle State.reset_busy (by decide) ⟨hzero _, hzero _, hzero _, hzero _, hzero _, hzero _, hzero _⟩ rfl rfl rfl⟩

/-! ### A step runs the decoded instruction -/

/-- Settles O6: a wait is the core's turn to the end of the operation `OP` selects. -/
theorem stepRunsSelectedOperation : Obligations.StepRunsSelectedOperation := by
  intro s ms o ha hb ho
  rw [step_of_move ha]
  exact coreToEnd_operation (s := { s with agenda := ms }) hb ((operation_eq_some s o).mpr ho)

/-- Settles O7, by the value's two low bits. -/
theorem stepIssuesCommands : Obligations.StepIssuesCommands := by
  intro s ms v ha
  have hstep := (step_of_move ha).trans (hostWriteRegister_cmd v { s with agenda := ms })
  refine ⟨fun hv => ?_, fun hv => ?_, fun hv => ?_, fun hv => ⟨_, rfl, ?_⟩, ?_⟩
  · rw [hstep, if_neg (by omega), if_neg (by omega)]; rfl
  · rw [hstep, if_pos (by omega), if_neg (by omega)]; rfl
  · rw [hstep, if_neg (by omega), if_pos (by omega)]; rfl
  · rw [hstep, if_pos (by omega), if_pos (by omega)]; rfl
  · rw [State.hostReadReg_of_value (g := .cmd) rfl (.inr rfl)]; rfl

/-- Settles O16: of the three things `START` can do, the checks leave the second. -/
theorem startBeginsOperation : Obligations.StartBeginsOperation := by
  intro s hb hc
  rcases startState_cases s with ⟨hb', _⟩ | ⟨_, _, e⟩ | ⟨_, hc', _⟩
  · exact (State.busy_idle_absurd hb' hb).elim
  · exact ⟨s.begin, congrArg Host.Outcome.next e, rfl, rfl, rfl, rfl, rfl, rfl, rfl, rfl, rfl⟩
  · exact absurd hc hc'

/-- Settles O49: on an idle core the run of an operation has no step. -/
theorem operationsNeedStart : Obligations.OperationsNeedStart := by
  intro s o hb
  rw [exec_operation, runToEnd, runBusy_of_idle _ hb]

/-! ### The host's accesses -/

/-- Settles O50, by the register the number names. -/
theorem idleWriteStoresCutValue : Obligations.IdleWriteStoresCutValue := by
  intro s ms k v ha hb hk
  rw [step_of_move ha]
  refine (hostWriteRegister_of_ne hk v _).trans (congrArg Host.Outcome.next ?_)
  unfold State.hostWriteReg
  rw [State.agenda_busy, hb, if_neg (by decide)]
  match k with
  | 0 | 1 | 2 | 3 | 4 | 5 | 6 | 7 | 8 | 9 | 10 | 11 => rfl
  | 12 => exact absurd rfl hk
  | _ + 13 => rfl

/-- Settles O52, by the register the number names. -/
theorem readsReturnValues : Obligations.ReadsReturnValues := by
  intro s ms k ha hread
  rw [step_of_move ha]
  refine congrArg Host.Outcome.next ?_
  have hidle : ¬ (k ≤ 5 ∨ k = 9 ∨ 12 ≤ k) → s.busy = false := hread.resolve_right
  match k with
  | 0 => exact State.hostReadReg_of_value (g := .op) rfl (.inr rfl)
  | 1 => exact State.hostReadReg_of_value (g := .width) rfl (.inr rfl)
  | 2 => exact State.hostReadReg_of_value (g := .height) rfl (.inr rfl)
  | 3 => exact State.hostReadReg_of_value (g := .target) rfl (.inr rfl)
  | 4 => exact State.hostReadReg_of_value (g := .mode) rfl (.inr rfl)
  | 5 => exact State.hostReadReg_of_value (g := .pixLen) rfl (.inr rfl)
  | 6 => exact State.hostReadReg_of_value (g := .maskLen) rfl (.inl (hidle (by decide)))
  | 7 => exact State.hostReadReg_of_value (g := .bytesLen) rfl (.inl (hidle (by decide)))
  | 8 => exact State.hostReadReg_of_value (g := .consumed) rfl (.inl (hidle (by decide)))
  | 9 => exact State.hostReadReg_of_value (g := .status) rfl (.inr rfl)
  | 10 => exact State.hostReadReg_of_value (g := .errcode) rfl (.inl (hidle (by decide)))
  | 11 => exact State.hostReadReg_of_value (g := .errrow) rfl (.inl (hidle (by decide)))
  | 12 => exact State.hostReadReg_of_value (g := .cmd) rfl (.inr rfl)
  | _ + 13 => exact State.hostReadReg_of_none rfl

/-- Settles O53: the free value is cut to the register's width. -/
theorem busyResultReadsChangeNothing : Obligations.BusyResultReadsChangeNothing := by
  intro s ms k ha hb hk
  have hcut : ∀ n, Config.freeReg s.fresh % 2 ^ n < 2 ^ n := fun n => Nat.mod_lt _ (Nat.two_pow_pos n)
  have hread : ∀ g, Reg.ofNum k = some g → g.isResult = true → step s = .next
      (State.deliver { s with agenda := ms } (.reg (Config.freeReg s.fresh % 2 ^ g.bits s.params))).nextFree :=
    fun g hg hres => (step_of_move ha).trans (congrArg Host.Outcome.next (State.hostReadReg_of_busy hg hb hres))
  rcases hk with rfl | rfl | rfl | rfl | rfl
  · exact ⟨_, _, hread .maskLen rfl rfl, rfl, hcut _, rfl⟩
  · exact ⟨_, _, hread .bytesLen rfl rfl, rfl, hcut _, rfl⟩
  · exact ⟨_, _, hread .consumed rfl rfl, rfl, hcut _, rfl⟩
  · exact ⟨_, _, hread .errcode rfl rfl, rfl, hcut _, rfl⟩
  · exact ⟨_, _, hread .errrow rfl rfl, rfl, hcut _, rfl⟩

/-- Settles O57: each access asks whether the element exists, a write once it has found the core idle. -/
theorem accessPastCapacityFaults : Obligations.AccessPastCapacityFaults := by
  intro s ms i c hi
  have hread : ∀ b t, b.cap s.params = some c →
      State.ifElement { s with agenda := ms } b i t = .fault (.noSuchElement b i) :=
    fun b t hcap => State.ifElement_past (s := { s with agenda := ms }) hcap hi t
  have hwrite : ∀ b t, b.cap s.params = some c → s.busy = false →
      State.hostWrite { s with agenda := ms } b i t = .fault (.noSuchElement b i) :=
    fun b t hcap hb => (State.hostWrite_of_idle (s := { s with agenda := ms }) hb b i t).trans (hread b t hcap)
  exact ⟨fun ha hcap => (step_of_move ha).trans (hread .pix _ hcap),
    fun ha hcap => (step_of_move ha).trans (hread .mask _ hcap),
    fun ha hcap => (step_of_move ha).trans (hread .bytes _ hcap),
    fun _ ha hcap hb => (step_of_move ha).trans (hwrite .pix _ hcap hb),
    fun _ ha hcap hb => (step_of_move ha).trans (hwrite .mask _ hcap hb),
    fun _ ha hcap hb => (step_of_move ha).trans (hwrite .bytes _ hcap hb)⟩

end Sys2Proof.Machine
end

section
/-! SUPPORT. Proofs about the buffers (R44, R47, R156): every step keeps their canonical form, a host write stores one
element, a host read stores none. -/

namespace Sys2Proof.Machine

/-! ### The canonical form -/

/-- The canonical form is a matter of the three buffers alone. -/
theorem State.Canonical.congr {s t : State} (h : s.Canonical) (hpix : t.pix = s.pix) (hmask : t.mask = s.mask)
    (hbytes : t.bytes = s.bytes) : t.Canonical :=
  ⟨hpix ▸ h.pix, hmask ▸ h.mask, hbytes ▸ h.bytes⟩

theorem State.Canonical.putPixel {s : State} (h : s.Canonical) (i : Nat) (p : Pixel) : (s.putPixel i p).Canonical :=
  ⟨Memory.wf_write i p h.pix, h.mask, h.bytes⟩

theorem State.Canonical.putBit {s : State} (h : s.Canonical) (i : Nat) (b : Bit) : (s.putBit i b).Canonical :=
  ⟨h.pix, Memory.wf_write i b h.mask, h.bytes⟩

theorem State.Canonical.putByte {s : State} (h : s.Canonical) (i : Nat) (b : Byte) : (s.putByte i b).Canonical :=
  ⟨h.pix, h.mask, Memory.wf_write i b h.bytes⟩

theorem State.Canonical.putRow {s : State} (h : s.Canonical) (i : Nat) (row : Row) : (s.putRow i row).Canonical :=
  ⟨h.pix, Memory.wf_writeAll row i h.mask, h.bytes⟩

theorem State.Canonical.emit {s : State} (h : s.Canonical) (b : Byte) (w : Work) : (s.emit b w).Canonical :=
  (h.putByte s.work.wp b).congr rfl rfl rfl

theorem State.Canonical.raiseFormat {s : State} (h : s.Canonical) (code : BitVec 2) (row : Nat) :
    (s.raiseFormat code row).Canonical :=
  ⟨h.pix, Memory.wf_forget s.mask s.fresh, h.bytes⟩

theorem State.Canonical.finishDecode {s : State} (h : s.Canonical) : (finishDecode s).Canonical := by
  unfold Machine.finishDecode
  split
  · exact h.raiseFormat _ _
  · exact h.congr rfl rfl rfl

/-- Every operation's step keeps the canonical form: it stores one element or one row, forgets `MASK`, or stores nothing. -/
theorem opTick_keeps_canonical {s : State} (h : s.Canonical) (o : Operation) : (opTick o s).Canonical := by
  cases o with
  | extract =>
    rcases extractTick_cases s with ⟨_, e⟩ | ⟨_, _, e⟩ | ⟨_, _, e⟩ <;> rw [opTick, e]
    · exact h.congr rfl rfl rfl
    · exact h.congr rfl rfl rfl
    · exact (h.putBit _ _).congr rfl rfl rfl
  | pack =>
    rcases packTick_cases s with ⟨_, e⟩ | ⟨_, _, e⟩ | ⟨_, _, e⟩ <;> rw [opTick, e]
    · exact h.congr rfl rfl rfl
    · exact h.congr rfl rfl rfl
    · exact h.emit _ _
  | encode =>
    rcases encodeTick_cases s with ⟨_, e⟩ | ⟨_, _, e⟩ | ⟨_, _, _, e⟩ | ⟨_, _, _, e⟩ <;> rw [opTick, e]
    · exact h.congr rfl rfl rfl
    · exact h.congr rfl rfl rfl
    · exact h.emit _ _
    · exact h.emit _ _
  | decode =>
    rcases decodeTick_cases s with ⟨_, _, e⟩ | ⟨_, _, _, e⟩ | ⟨_, _, _, _, e⟩ | ⟨_, _, _, _, e⟩ <;> rw [opTick, e]
    · exact h.finishDecode
    · exact (h.putRow _ _).congr rfl rfl rfl
    · exact h.raiseFormat _ _
    · rw [blockState_eq]; exact h.congr rfl rfl rfl

theorem startState_keeps_canonical {s : State} (h : s.Canonical) : (startState s).Canonical := by
  rcases startState_cases s with ⟨_, e⟩ | ⟨_, _, e⟩ | ⟨_, _, e⟩ <;> rw [e]
  · exact h
  · exact h.congr rfl rfl rfl
  · exact h.congr rfl rfl rfl

theorem clearState_keeps_canonical {s : State} (h : s.Canonical) : (clearState s).Canonical := by
  rcases clearState_cases s with ⟨_, e⟩ | ⟨_, e⟩ <;> rw [e]
  · exact h
  · exact h.congr rfl rfl rfl

theorem State.Canonical.hostWriteReg {s : State} (h : s.Canonical) (k v : Nat) : (s.hostWriteReg k v).Canonical := by
  rcases s.hostWriteReg_cases k v with e | ⟨_, g, e⟩ <;> rw [e]
  · exact h
  · exact h.congr (s.setReg_pix v g) (s.setReg_mask v g) (s.setReg_bytes v g)

/-- Settles O58, by the induction over a step. -/
theorem stepKeepsCanonicalBuffers : Obligations.StepKeepsCanonicalBuffers :=
  step_keeps
    (hagenda := fun _ _ h => h.congr rfl rfl rfl)
    (htick := fun _ o h _ _ => opTick_keeps_canonical h o)
    (hstart := fun _ h => startState_keeps_canonical h)
    (hclear := fun _ h => clearState_keeps_canonical h)
    (hwrite := fun _ k v h => h.hostWriteReg k v)
    (hdeliver := fun _ _ h => h.congr rfl rfl rfl)
    (hfree := fun _ h => h.congr rfl rfl rfl)
    (hpix := fun _ i p h _ _ => h.putPixel i p)
    (hmask := fun _ i b h _ _ => h.putBit i b)
    (hbytes := fun _ i b h _ _ => h.putByte i b)
    (hreset := fun _ _ => ⟨rfl, rfl, rfl⟩)

/-! ### The host's accesses to the buffers -/

/-- An access to an element below the capacity. -/
theorem State.ifElement_below {s : State} {b : BufName} {i : Nat} (hi : ∀ c ∈ b.cap s.params, i < c) (t : State) :
    s.ifElement b i t = .next t :=
  if_pos ((inCap_iff i _).mpr hi)

/-- A write to an element below the capacity on an idle core. -/
theorem State.hostWrite_below {s : State} {b : BufName} {i : Nat} (hb : s.busy = false)
    (hi : ∀ c ∈ b.cap s.params, i < c) (t : State) : s.hostWrite b i t = .next t :=
  (State.hostWrite_of_idle hb b i t).trans (State.ifElement_below hi t)

/-- Settles O54: the write is accepted, and is one write to one buffer. -/
theorem idleBufferWriteStores : Obligations.IdleBufferWriteStores := by
  intro s ms i hb
  have hwrite : ∀ b t, (∀ c ∈ b.cap s.params, i < c) → State.hostWrite { s with agenda := ms } b i t = .next t :=
    fun b t hi => State.hostWrite_below (s := { s with agenda := ms }) hb hi t
  refine ⟨fun p ha hi => ⟨_, (step_of_move ha).trans (hwrite .pix _ hi), ?_, fun a hne => ?_, rfl⟩,
    fun v ha hi => ⟨_, (step_of_move ha).trans (hwrite .mask _ hi), ?_, fun a hne => ?_, rfl⟩,
    fun v ha hi => ⟨_, (step_of_move ha).trans (hwrite .bytes _ hi), ?_, fun a hne => ?_, rfl⟩⟩
  · rw [State.pixelAt_putPixel, if_pos rfl]
  · rw [State.pixelAt_putPixel, if_neg hne]; rfl
  · rw [State.maskAt_putBit, if_pos rfl]
  · rw [State.maskAt_putBit, if_neg hne]; rfl
  · rw [State.byteAt_putByte, if_pos rfl]
  · rw [State.byteAt_putByte, if_neg hne]; rfl

theorem State.outputBuffer_of_idle {s : State} (hb : s.busy = false) : s.outputBuffer = none := by
  simp [State.outputBuffer, hb]

/-- `MASK` is no output of an idle core, of `PACK` or of `ENCODE` (R45). -/
theorem State.outputBuffer_ne_mask {s : State} (h : s.busy = false ∨ s.op = 2#3 ∨ s.op = 3#3) :
    s.outputBuffer ≠ some .mask := by
  rcases h with hb | hop | hop
  · simp [State.outputBuffer_of_idle hb]
  · simp [State.outputBuffer, (operation_pack s).mpr hop]
  · simp [State.outputBuffer, (operation_encode s).mpr hop]

/-- `BYTES` is no output of an idle core, of `EXTRACT` or of `DECODE` (R45). -/
theorem State.outputBuffer_ne_bytes {s : State} (h : s.busy = false ∨ s.op = 1#3 ∨ s.op = 4#3) :
    s.outputBuffer ≠ some .bytes := by
  rcases h with hb | hop | hop
  · simp [State.outputBuffer_of_idle hb]
  · simp [State.outputBuffer, (operation_extract s).mpr hop]
  · simp [State.outputBuffer, (operation_decode s).mpr hop]

/-- A read of `MASK` delivers some bit and touches, beside it, at most the number of the next free value. -/
theorem State.hostReadMask_delivers (s : State) (i : Nat) :
    ∃ b n, s.hostReadMask i = { s with lastRead := .bit b, fresh := n } := by
  unfold State.hostReadMask
  split
  · exact ⟨_, _, rfl⟩
  · exact ⟨_, _, rfl⟩

theorem State.hostReadBytes_delivers (s : State) (i : Nat) :
    ∃ b n, s.hostReadBytes i = { s with lastRead := .byte b, fresh := n } := by
  unfold State.hostReadBytes
  split
  · exact ⟨_, _, rfl⟩
  · exact ⟨_, _, rfl⟩

/-- Settles O56: the access is allowed, and what it delivers turns on whether the buffer is the output. -/
theorem bufferReadsChangeNothing : Obligations.BufferReadsChangeNothing := by
  intro s ms i
  have hread : ∀ b t, (∀ c ∈ b.cap s.params, i < c) → State.ifElement { s with agenda := ms } b i t = .next t :=
    fun b t hi => State.ifElement_below (s := { s with agenda := ms }) hi t
  refine ⟨fun ha hi => (step_of_move ha).trans (hread .pix _ hi), fun ha hi => ?_, fun ha hi => ?_⟩
  · have hstep := (step_of_move ha).trans (hread .mask _ hi)
    refine ⟨fun h => ?_, ?_⟩
    · exact hstep.trans (congrArg Host.Outcome.next
        (if_neg (State.outputBuffer_ne_mask (s := { s with agenda := ms }) h)))
    · obtain ⟨b, n, e⟩ := State.hostReadMask_delivers { s with agenda := ms } i
      exact ⟨_, b, e ▸ hstep, rfl, rfl⟩
  · have hstep := (step_of_move ha).trans (hread .bytes _ hi)
    refine ⟨fun h => ?_, ?_⟩
    · exact hstep.trans (congrArg Host.Outcome.next
        (if_neg (State.outputBuffer_ne_bytes (s := { s with agenda := ms }) h)))
    · obtain ⟨b, n, e⟩ := State.hostReadBytes_delivers { s with agenda := ms } i
      exact ⟨_, b, e ▸ hstep, rfl, rfl⟩

end Sys2Proof.Machine
end

section
/-! SUPPORT. Proofs about the step form and the atomic form of an operation (R159): the machine's own steps are the run's. -/

namespace Sys2Proof.Machine

/-! ### No operation's step looks at the moves to come -/

/-- `s` with these moves to come. -/
def State.withAgenda (s : State) (ms : List Move) : State := { s with agenda := ms }

@[simp] theorem State.withAgenda_busy (s : State) (ms : List Move) : (s.withAgenda ms).busy = s.busy := rfl

@[simp] theorem State.withAgenda_operation (s : State) (ms : List Move) :
    (s.withAgenda ms).operation = s.operation := rfl

theorem State.withAgenda_decPhase (s : State) (ms : List Move) : (s.withAgenda ms).decPhase = s.decPhase := rfl

theorem finishDecode_withAgenda (s : State) (ms : List Move) :
    finishDecode (s.withAgenda ms) = (finishDecode s).withAgenda ms := by
  by_cases h : (s.strict && s.work.bc != s.bytesLen) = true
  · rw [show finishDecode s = _ from if_pos h]; exact if_pos h
  · rw [show finishDecode s = _ from if_neg h]; exact if_neg h

theorem decodeTick_withAgenda (s : State) (ms : List Move) :
    decodeTick (s.withAgenda ms) = (decodeTick s).withAgenda ms := by
  unfold decodeTick
  rw [State.withAgenda_decPhase]
  cases s.decPhase with
  | planeEnd => exact finishDecode_withAgenda s ms
  | rowEnd => rfl
  | exhausted => rfl
  | block => simp only [blockState_eq]; rfl

/-- A step of an operation does the same whatever moves are to come, and leaves them. -/
theorem opTick_withAgenda (o : Operation) (s : State) (ms : List Move) :
    opTick o (s.withAgenda ms) = (opTick o s).withAgenda ms := by
  cases o with
  | extract =>
    rcases extractTick_cases s with ⟨hr, e⟩ | ⟨hr, hc, e⟩ | ⟨hr, hc, e⟩ <;> simp only [opTick, e]
    · exact if_pos hr
    · exact (if_neg hr.not_ge).trans (if_pos hc)
    · exact (if_neg hr.not_ge).trans (if_neg hc.not_ge)
  | pack =>
    rcases packTick_cases s with ⟨hr, e⟩ | ⟨hr, hj, e⟩ | ⟨hr, hj, e⟩ <;> simp only [opTick, e]
    · exact if_pos hr
    · exact (if_neg hr.not_ge).trans (if_pos hj)
    · exact (if_neg hr.not_ge).trans (if_neg hj.not_ge)
  | encode =>
    rcases encodeTick_cases s with ⟨hr, e⟩ | ⟨hr, hx, e⟩ | ⟨hr, hx, hu, e⟩ | ⟨hr, hx, hu, e⟩ <;> simp only [opTick, e]
    · exact if_pos hr
    · exact (if_neg hr.not_ge).trans (if_pos hx)
    · exact (if_neg hr.not_ge).trans ((if_neg hx.not_ge).trans (if_pos hu))
    · exact (if_neg hr.not_ge).trans ((if_neg hx.not_ge).trans (if_neg (Bool.not_eq_true _ ▸ hu)))
  | decode => exact decodeTick_withAgenda s ms

/-! ### The machine's steps and the run's -/

theorem run_succ_of_step {M : Host.Core} {s t : M.State} (h : M.step s = .next t) (n : Nat) :
    M.run (n + 1) s = M.run n t := by
  rw [Host.Core.run, h]

/-- Where each step takes the core's turn, from the moves `toCome (n + 1)` to the moves `toCome n`, `n` machine steps are
`n` steps of the operation's run: past its end the idle core holds its state. -/
theorem run_eq_runBusy {o : Operation} {toCome : Nat → List Move}
    (hturn : ∀ n (s : State), step (s.withAgenda (toCome (n + 1))) = coreTurn (s.withAgenda (toCome n)))
    (n : Nat) {s : State} (ho : s.operation = some o) :
    Host.Core.run Sys2Proof.core n (s.withAgenda (toCome n))
      = .next (runBusy (opTick o) n (s.withAgenda (toCome 0))) := by
  induction n generalizing s with
  | zero => rfl
  | succ n ih =>
    cases hb : s.busy with
    | false =>
      have hstep := (hturn n s).trans (coreTurn_nothing (.inl hb))
      have hidle : (s.withAgenda (toCome 0)).busy = false := hb
      refine (run_succ_of_step (M := Sys2Proof.core) hstep n).trans ((ih ho).trans (congrArg _ ?_))
      rw [runBusy_of_idle n hidle, runBusy_of_idle (n + 1) hidle]
    | true =>
      have hstep := (hturn n s).trans (coreTurn_operation hb ho)
      have hbusy : (s.withAgenda (toCome 0)).busy = true := hb
      rw [opTick_withAgenda] at hstep
      refine (run_succ_of_step (M := Sys2Proof.core) hstep n).trans
        ((ih ((opTick_operation o s).trans ho)).trans (congrArg _ ?_))
      rw [runBusy_succ n hbusy, opTick_withAgenda]

theorem step_of_yield (s : State) (ms : List Move) : step (s.withAgenda (.yield :: ms)) = coreTurn (s.withAgenda ms) :=
  step_of_move (s := s.withAgenda (.yield :: ms)) rfl

/-- Settles O46: the bound on the run's steps is a number of machine steps that serves both hosts. -/
theorem stepFormReachesAtomicForm : Obligations.StepFormReachesAtomicForm := by
  intro s o _ hop
  have ho : s.operation = some o := (operation_eq_some s o).mpr hop
  refine ⟨s.stepBound, fun ha => ?_, fun ms => ?_⟩
  · have hs : s.withAgenda [] = s := ha ▸ rfl
    have hrun := run_eq_runBusy (toCome := fun _ => []) (fun _ _ => step_of_no_move rfl) s.stepBound ho
    rw [hs] at hrun
    exact hrun.trans (exec_operation o s).symm
  · exact (run_eq_runBusy (toCome := fun n => List.replicate n .yield ++ ms)
      (fun _ s => step_of_yield s _) s.stepBound ho).trans (exec_operation o _).symm

end Sys2Proof.Machine
end

section
/-! SUPPORT. Proofs about the bytes of `BYTES` as blocks (R64 to R71) and the step that fetches one (R113, R114). -/

namespace Sys2Proof.Machine

/-! ### The fields of a byte -/

/-- The mask of a Run's length field (R69) selects bits 5..0. -/
theorem toNat_and_lengthMask (b : Byte) : (b &&& 0x3F#8).toNat = (b.extractLsb' 0 6).toNat := by
  rw [BitVec.toNat_and, BitVec.extractLsb'_toNat, Nat.shiftRight_zero]
  exact Nat.and_two_pow_sub_one_eq_mod b.toNat 6

theorem decodeBlock_of_top_set {b : Byte} (h : b.getLsbD 7 = true) :
    decodeBlock b = .run (b.getLsbD 6) ((b.extractLsb' 0 6).toNat + 1) := by
  rw [decodeBlock, if_pos h, toNat_and_lengthMask]

theorem decodeBlock_of_top_clear {b : Byte} (h : b.getLsbD 7 = false) : decodeBlock b = .lit (b.extractLsb' 0 7) := by
  rw [decodeBlock, h, if_neg Bool.false_ne_true, BitVec.setWidth_eq_extractLsb' (by decide)]

/-- Settles O12, by bit 7. -/
theorem topBitChoosesFormat : Obligations.TopBitChoosesFormat := by
  intro b
  split
  case isTrue h => exact decodeBlock_of_top_set h
  case isFalse h => exact decodeBlock_of_top_clear (Bool.eq_false_of_not_eq_true h)

/-- A Literal's byte is its payload under a clear bit 7 (R64). -/
theorem setWidth_extract_payload {b : Byte} (h : b.getLsbD 7 = false) : (b.extractLsb' 0 7).setWidth 8 = b := by
  refine BitVec.eq_of_getLsbD_eq fun i hi => ?_
  rw [BitVec.getLsbD_setWidth, BitVec.getLsbD_extractLsb', Nat.zero_add]
  by_cases h7 : i < 7
  · simp [hi, h7]
  · obtain rfl : i = 7 := by omega
    simpa using h

/-- A Run's byte is its format bit, its value and its length field put together (R65, R69). -/
theorem or_runFields {b : Byte} (h : b.getLsbD 7 = true) :
    0x80#8 ||| ((BitVec.ofBool (b.getLsbD 6)).setWidth 8 <<< 6) ||| BitVec.ofNat 8 (b.extractLsb' 0 6).toNat = b := by
  rw [← toNat_and_lengthMask, BitVec.ofNat_toNat, BitVec.setWidth_eq]
  revert b
  decide

theorem encode_decodeBlock (b : Byte) : encode (decodeBlock b).toInstr = (.block, b) := by
  cases h : b.getLsbD 7 with
  | true =>
    rw [decodeBlock_of_top_set h, Block.toInstr, encode, Nat.add_sub_cancel, or_runFields h]
  | false =>
    rw [decodeBlock_of_top_clear h, Block.toInstr, encode, setWidth_extract_payload h]

/-- Settles O11: a decoded length is in range, and each format's fields are the whole byte. -/
theorem everyByteIsOneBlock : Obligations.EveryByteIsOneBlock :=
  fun b => ⟨decodeBlock_wf b, encode_decodeBlock b⟩

/-! ### The step that fetches -/

/-- A row to decode, not yet complete, with a byte left: the next step is a block (R113, R114). -/
theorem State.decPhase_eq_block {s : State} (hr : s.work.r < s.height) (hbuf : s.work.buf.length < s.width)
    (hbc : s.work.bc < s.bytesLen) : s.decPhase = .block := by
  rw [State.decPhase, if_neg (Nat.not_le.mpr hr), if_neg (Nat.not_le.mpr hbuf), if_neg (Nat.not_le.mpr hbc)]

/-- The core's turn on a `DECODE` that needs a byte is the execution of the block fetched. -/
theorem coreTurn_block {s : State} (hb : s.busy = true) (ho : s.operation = some .decode) (hp : s.decPhase = .block) :
    coreTurn s = exec (decodeBlock s.fetchByte).toInstr s.fetched := by
  simp only [coreTurn, hb, ho, hp, if_true]

/-- A step is the core's turn where no move is pending or the host lets the core go on. -/
theorem step_of_core_turn {s : State} {ms : List Move} (ha : (s.agenda = [] ∧ ms = []) ∨ s.agenda = .yield :: ms) :
    step s = coreTurn { s with agenda := ms } := by
  rcases ha with ⟨ha, rfl⟩ | ha
  · rw [step_of_no_move ha, ← ha]
  · exact step_of_move ha

/-- Settles O4: the step is the core's turn, whose loop tests leave the fetch. -/
theorem stepRunsFetchedBlock : Obligations.StepRunsFetchedBlock := by
  intro s ms ha hb hop hr hbuf hbc
  refine ⟨(step_of_core_turn ha).trans ?_, decodeBlock_wf _⟩
  exact coreTurn_block (s := { s with agenda := ms }) hb ((operation_decode s).mpr hop)
    (State.decPhase_eq_block hr hbuf hbc)

end Sys2Proof.Machine
end

section
/-! SUPPORT. An operation's whole run: it ends within its bound (R158), so an invariant of its steps gives what holds at
its end. -/

namespace Sys2Proof.Machine

/-- The measure each operation's step lowers: what is left of the grid, or of the rows and the stream. -/
def opMeasure : Operation → State → Nat
  | .extract, s => (s.height - s.work.r) * (s.width + 1) + (s.width - s.work.c)
  | .pack, s    => (s.height - s.work.r) * (s.width + 1) + (s.width - s.work.j)
  | .encode, s  => (s.height - s.work.r) * (s.width + 1) + (s.width - s.work.x)
  | .decode, s  => (s.height - s.work.r) + (s.bytesLen - s.work.bc)

theorem opTick_measure {o : Operation} {s : State} (h : (opTick o s).busy = true) :
    opMeasure o (opTick o s) < opMeasure o s := by
  cases o with
  | extract => exact extractTick_measure h
  | pack => exact packTick_measure h
  | encode => exact encodeTick_measure h
  | decode => exact decodeTick_measure h

theorem opMeasure_lt_stepBound (o : Operation) (s : State) : opMeasure o s < s.stepBound := by
  have hgrid : (s.height - s.work.r) * (s.width + 1) ≤ s.height * (s.width + 1) :=
    Nat.mul_le_mul_right _ (Nat.sub_le _ _)
  have hrows : s.height ≤ s.height * (s.width + 1) := Nat.le_mul_of_pos_right _ (Nat.succ_pos _)
  cases o <;> simp only [opMeasure, State.stepBound] <;> omega

/-- Every operation's run ends with the core idle (R153, R158). -/
theorem runToEnd_busy (o : Operation) (s : State) : (runToEnd (opTick o) s).busy = false :=
  runBusy_ends (fun _ _ => opTick_measure) _ s (opMeasure_lt_stepBound o s)

/-- The loop law of an operation's whole run: where every step keeps `P` or ends the operation in `Q`, the run ends in
`Q`. -/
theorem runToEnd_reaches (o : Operation) {P Q : State → Prop}
    (hstep : ∀ t, t.busy = true → P t →
      ((opTick o t).busy = true ∧ P (opTick o t)) ∨ ((opTick o t).busy = false ∧ Q (opTick o t)))
    {s : State} (hb : s.busy = true) (hs : P s) : Q (runToEnd (opTick o) s) := by
  refine runBusy_reaches (fun t htb ht hgo => ?_) (fun t htb ht hstop => ?_) _ s hb hs (runToEnd_busy o s)
  · rcases hstep t htb ht with ⟨_, hP⟩ | ⟨hidle, _⟩
    · exact hP
    · exact (State.busy_idle_absurd hgo hidle).elim
  · rcases hstep t htb ht with ⟨hbusy, _⟩ | ⟨_, hQ⟩
    · exact (State.busy_idle_absurd hbusy hstop).elim
    · exact hQ

theorem State.Begun.busy {s : State} (h : s.Begun) : s.busy = true := by
  rw [State.busy, h.status, Status.running_busy]

end Sys2Proof.Machine
end

section
/-! SUPPORT. Proofs about `EXTRACT` (R85 to R90): the mask is the comparison of every pixel with the target. -/

namespace Sys2Proof.Machine

/-! ### The cell function and the target -/

/-- The cell function compares channel by channel (R86). -/
theorem matchPixel_iff (p t : Pixel) : matchPixel p t = true ↔ p.r = t.r ∧ p.g = t.g ∧ p.b = t.b := by
  simp only [matchPixel, Bool.and_eq_true, decide_eq_true_eq, and_assoc]

/-- Settles O21: it is the cell function's law. -/
theorem cellMatchesPerChannel : Obligations.CellMatchesPerChannel := matchPixel_iff

/-- A pixel matches one target alone (R86). -/
theorem eq_of_matchPixel {p t u : Pixel} (ht : matchPixel p t = true) (hu : matchPixel p u = true) : t = u := by
  obtain ⟨htr, htg, htb⟩ := (matchPixel_iff p t).mp ht
  obtain ⟨hur, hug, hub⟩ := (matchPixel_iff p u).mp hu
  cases t
  cases u
  exact Pixel.mk.injEq .. ▸ ⟨htr.symm.trans hur, htg.symm.trans hug, htb.symm.trans hub⟩

/-- The three channels of `TARGET` are all of it (R25). -/
theorem target_eq_of_targetPixel_eq {s u : State} (h : s.targetPixel = u.targetPixel) : s.target = u.target := by
  simp only [State.targetPixel, Pixel.mk.injEq, ← BitVec.toNat_inj, BitVec.extractLsb'_toNat,
    Nat.shiftRight_eq_div_pow] at h
  obtain ⟨hr, hg, hb⟩ := h
  refine BitVec.eq_of_toNat_eq ?_
  omega

/-! ### The run of `EXTRACT` -/

/-- `EXTRACT`, begun at `s`, stands at `t`: it has compared the cells before row `r`, column `c` (R87), and no other cell
of `MASK` has changed. -/
structure State.ExtractProgress (s t : State) : Prop where
  config : t.config = s.config
  column : t.work.c ≤ s.width
  inGrid : t.work.r * s.width + t.work.c ≤ s.height * s.width
  cells  : ∀ a, t.maskAt a =
    if a < t.work.r * s.width + t.work.c then matchPixel (s.pixelAt a) s.targetPixel else s.maskAt a

/-- `t` is where `EXTRACT`, begun at `s`, ends (R87). -/
structure State.ExtractDone (s t : State) : Prop where
  cells   : ∀ a, t.maskAt a = if a < s.height * s.width then matchPixel (s.pixelAt a) s.targetPixel else s.maskAt a
  maskLen : t.maskLen = s.width * s.height
  status  : t.status = Status.done

theorem State.Begun.extractProgress {s : State} (h : s.Begun) : s.ExtractProgress s := by
  refine ⟨rfl, ?_, ?_, fun a => ?_⟩ <;> rw [h.work]
  · exact Nat.zero_le _
  · simp [Work.reset]
  · simp [Work.reset]

theorem State.ExtractProgress.rowEnd {s t : State} (h : s.ExtractProgress t) (hc : t.width ≤ t.work.c) {w : Work}
    (hr' : w.r = t.work.r + 1) (hc' : w.c = 0) : s.ExtractProgress (t.withWork w) := by
  obtain ⟨-, hw, -⟩ := State.config_eq_iff.mp h.config
  have hcol := h.column
  have hpos : w.r * s.width + w.c = t.work.r * s.width + t.work.c := by
    rw [hr', hc', Nat.add_mul]; omega
  refine ⟨h.config, ?_, hpos ▸ h.inGrid, hpos ▸ h.cells⟩
  rw [State.withWork_work, hc']
  exact Nat.zero_le _

/-- The cell at row `r`, column `c` is stored: it is the next one. -/
theorem State.ExtractProgress.cell {s t : State} (h : s.ExtractProgress t) (hr : t.work.r < t.height)
    (hc : t.work.c < t.width) {w : Work} (hr' : w.r = t.work.r) (hc' : w.c = t.work.c + 1) :
    s.ExtractProgress ((t.putBit (t.index t.work.r t.work.c)
      (matchPixel (t.pixelAt (t.index t.work.r t.work.c)) t.targetPixel)).withWork w) := by
  obtain ⟨-, hw, hh, htarget, -, -, hpix, -⟩ := State.config_eq_iff.mp h.config
  have hpixel : t.targetPixel = s.targetPixel := by rw [State.targetPixel, htarget, State.targetPixel]
  have hpos : w.r * s.width + w.c = t.work.r * s.width + t.work.c + 1 := by rw [hr', hc', Nat.add_assoc]
  rw [State.index, hw, State.pixelAt_congr hpix, hpixel]
  rw [hh] at hr
  rw [hw] at hc
  refine ⟨h.config, hc' ▸ hc, hpos ▸ rowIndex_lt hr hc, fun a => (State.maskAt_putBit ..).trans ?_⟩
  rw [h.cells a, State.withWork_work, hpos]
  rcases Nat.lt_trichotomy a (t.work.r * s.width + t.work.c) with hlt | rfl | hgt
  · rw [if_neg hlt.ne, if_pos hlt, if_pos (by omega)]
  · rw [if_pos rfl, if_pos (by omega)]
  · rw [if_neg hgt.ne', if_neg (by omega), if_neg (by omega)]

theorem State.ExtractProgress.finish {s t : State} (h : s.ExtractProgress t) (hr : t.height ≤ t.work.r) :
    s.ExtractDone (finishExtract t) := by
  obtain ⟨-, hw, hh, -⟩ := State.config_eq_iff.mp h.config
  have hall : t.work.r * s.width + t.work.c = s.height * s.width := by
    have hrows := Nat.mul_le_mul_right s.width (hh ▸ hr)
    have hgrid := h.inGrid
    omega
  exact ⟨hall ▸ h.cells, by rw [finishExtract, State.finish_maskLen, hw, hh], rfl⟩

/-- `EXTRACT` begun by a `START` completes, with every cell compared (R87). -/
theorem runToEnd_extract {s : State} (h : s.Begun) : s.ExtractDone (runToEnd extractTick s) := by
  refine runToEnd_reaches .extract (P := s.ExtractProgress) (fun t hb ht => ?_) h.busy h.extractProgress
  rcases extractTick_cases t with ⟨hr, e⟩ | ⟨_, hc, e⟩ | ⟨hr, hc, e⟩ <;> rw [opTick, e]
  · exact .inr ⟨finishExtract_busy t, ht.finish hr⟩
  · exact .inl ⟨hb, ht.rowEnd hc rfl rfl⟩
  · exact .inl ⟨hb, ht.cell hr hc rfl rfl⟩

/-- The cell at row `r`, column `c` of the mask `EXTRACT` leaves. -/
theorem State.ExtractDone.cell_iff {s t : State} (h : s.ExtractDone t) {r c : Nat} (hr : r < s.height)
    (hc : c < s.width) :
    t.maskAt (r * s.width + c) = true ↔ matchPixel (s.pixelAt (r * s.width + c)) s.targetPixel = true := by
  rw [h.cells, if_pos (rowIndex_lt hr hc)]

/-- Settles O22: the run's end and its frame (O47). -/
theorem extractBuildsMask : Obligations.ExtractBuildsMask := by
  intro s hs
  have hdone := runToEnd_extract hs
  have hframe : s.withExtractOutputs (runToEnd extractTick s) = s := (operationsWriteOnlyTheirOutputs s _).1 rfl
  refine ⟨_, rfl, fun r c hr hc => (hdone.cell_iff hr hc).trans (matchPixel_iff _ _), fun a ha => ?_, ?_⟩
  · rw [hdone.cells, if_neg (Nat.mul_comm s.height _ ▸ ha.not_gt)]
  · calc { runToEnd extractTick s with work := s.work, mask := s.mask }
        = { s.withExtractOutputs (runToEnd extractTick s) with
            maskLen := (runToEnd extractTick s).maskLen, status := (runToEnd extractTick s).status } := rfl
      _ = { s with maskLen := s.width * s.height, status := Status.done } := by
        rw [hframe, hdone.maskLen, hdone.status]

/-- Settles O23: a pixel that matches both targets makes them equal. -/
theorem extractedPlanesAreDisjoint : Obligations.ExtractedPlanesAreDisjoint := by
  intro s T hs hT
  have hs' : State.Begun { s with target := T } := ⟨hs.status, hs.work⟩
  refine ⟨_, _, rfl, rfl, fun r c hr hc ⟨ht, hu⟩ => hT ?_⟩
  have hmatch := ((runToEnd_extract hs).cell_iff hr hc).mp ht
  have hmatch' := ((runToEnd_extract hs').cell_iff hr hc).mp hu
  exact (target_eq_of_targetPixel_eq (eq_of_matchPixel hmatch hmatch')).symm

end Sys2Proof.Machine
end

section
/-! SUPPORT. Proofs about the degenerate shapes (R90, R138, R145): with no column or no row an operation only counts rows
and ends. -/

namespace Sys2Proof.Machine

/-- The last step of an operation that completes, `DECODE` with its end check. -/
def opEnd : Operation → State → State
  | .extract => finishExtract
  | .pack    => finishBytes
  | .encode  => finishBytes
  | .decode  => finishDecode

theorem opEnd_busy (o : Operation) (s : State) : (opEnd o s).busy = false := by
  cases o with
  | extract => exact finishExtract_busy s
  | pack => exact finishBytes_busy s
  | encode => exact finishBytes_busy s
  | decode => exact finishDecode_busy s

/-- `t` is `s` but for working registers other than the output pointer and the byte cursor. -/
def State.OnlyCounts (s t : State) : Prop := ∃ w : Work, t = s.withWork w ∧ w.wp = s.work.wp ∧ w.bc = s.work.bc

theorem packedLen_zero : packedLen 0 = 0 := rfl

/-- Storing the empty row stores nothing. -/
theorem State.putRow_take_zero (s : State) (i : Nat) (row : Row) : s.putRow i (row.take 0) = s := rfl

/-- With no column or no row, a step of an operation ends it or counts a row. -/
theorem opTick_of_degenerate (o : Operation) {s : State} (h : s.width = 0 ∨ s.height = 0) :
    opTick o s = opEnd o s ∨ s.OnlyCounts (opTick o s) := by
  have hwidth : s.work.r < s.height → s.width = 0 := fun hr => h.resolve_right (by omega)
  cases o with
  | extract =>
    rcases extractTick_cases s with ⟨_, e⟩ | ⟨_, _, e⟩ | ⟨hr, hc, _⟩
    · exact .inl e
    · exact .inr ⟨_, e, rfl, rfl⟩
    · have := hwidth hr; omega
  | pack =>
    rcases packTick_cases s with ⟨_, e⟩ | ⟨_, _, e⟩ | ⟨hr, hj, _⟩
    · exact .inl e
    · exact .inr ⟨_, e, rfl, rfl⟩
    · rw [hwidth hr, packedLen_zero] at hj; omega
  | encode =>
    rcases encodeTick_cases s with ⟨_, e⟩ | ⟨_, _, e⟩ | ⟨hr, hx, _, _⟩ | ⟨hr, hx, _, _⟩
    · exact .inl e
    · exact .inr ⟨_, e, rfl, rfl⟩
    · have := hwidth hr; omega
    · have := hwidth hr; omega
  | decode =>
    rcases decodeTick_cases s with ⟨_, _, e⟩ | ⟨hr, _, _, e⟩ | ⟨hr, hbuf, _, _, _⟩ | ⟨hr, hbuf, _, _, _⟩
    · exact .inl e
    · rw [endRow, hwidth hr, State.putRow_take_zero] at e
      exact .inr ⟨_, e, rfl, rfl⟩
    · have := hwidth hr; omega
    · have := hwidth hr; omega

theorem State.OnlyCounts.trans {s t u : State} (hst : s.OnlyCounts t) (htu : t.OnlyCounts u) : s.OnlyCounts u := by
  obtain ⟨w, rfl, hwp, hbc⟩ := hst
  obtain ⟨w', rfl, hwp', hbc'⟩ := htu
  exact ⟨w', rfl, hwp'.trans hwp, hbc'.trans hbc⟩

/-- With no column or no row, an operation's run is its last step, taken when the rows are counted. -/
theorem runToEnd_of_degenerate (o : Operation) {s : State} (hs : s.Begun) (h : s.width = 0 ∨ s.height = 0) :
    ∃ t, s.OnlyCounts t ∧ runToEnd (opTick o) s = opEnd o t := by
  refine runToEnd_reaches o (P := s.OnlyCounts) (Q := fun u => ∃ t, s.OnlyCounts t ∧ u = opEnd o t)
    (fun t hb ht => ?_) hs.busy ⟨s.work, rfl, rfl, rfl⟩
  have hdeg : t.width = 0 ∨ t.height = 0 := by obtain ⟨w, rfl, _⟩ := ht; exact h
  rcases opTick_of_degenerate o hdeg with e | hcount
  · exact .inr ⟨e ▸ opEnd_busy o t, t, ht, e⟩
  · refine .inl ⟨?_, ht.trans hcount⟩
    obtain ⟨w, e, _⟩ := hcount
    exact e ▸ hb

/-! ### The end check of `DECODE` -/

theorem State.strict_iff (s : State) : s.strict = true ↔ s.mode = 1#1 := by
  unfold State.strict
  generalize s.mode = m
  revert m
  decide

/-- In strict mode bytes that remain raise `FORMAT_TRAILING` (R134, R166). -/
theorem finishDecode_of_trailing {s : State} (h : s.mode = 1#1 ∧ s.work.bc ≠ s.bytesLen) :
    finishDecode s = s.raiseFormat Err.trailing s.height :=
  if_pos (by simpa [State.strict_iff] using h)

/-- Otherwise `DECODE` completes (R135). -/
theorem finishDecode_of_complete {s : State} (h : ¬ (s.mode = 1#1 ∧ s.work.bc ≠ s.bytesLen)) :
    finishDecode s = State.finish { s with maskLen := s.width * s.height, consumed := s.work.bc } :=
  if_neg (by simpa [State.strict_iff] using h)

/-- The end check with an empty grid and no byte read (R138). -/
theorem finishDecode_of_nothing_read {s : State} (harea : s.width * s.height = 0) (hbc : s.work.bc = 0) :
    (finishDecode s).maskLen = 0 ∧ (finishDecode s).consumed = 0
      ∧ if s.mode = 1#1 ∧ 0 < s.bytesLen then
          (finishDecode s).status = Status.failed ∧ (finishDecode s).errcode = Err.trailing
            ∧ (finishDecode s).errrow = s.height
        else (finishDecode s).status = Status.done ∧ (finishDecode s).mask = s.mask := by
  have hremain : 0 < s.bytesLen ↔ s.work.bc ≠ s.bytesLen := by rw [hbc, Nat.pos_iff_ne_zero, ne_comm]
  simp only [hremain]
  split
  case isTrue htrailing =>
    rw [finishDecode_of_trailing htrailing]
    exact ⟨rfl, hbc, rfl, rfl, rfl⟩
  case isFalse hcomplete =>
    rw [finishDecode_of_complete hcomplete]
    exact ⟨harea, hbc, rfl, rfl⟩

/-- Settles O41: each operation's last step on the state whose rows are counted. -/
theorem degenerateShapes : Obligations.DegenerateShapes := by
  intro s hs h
  have harea : s.width * s.height = 0 := Nat.mul_eq_zero.mpr h
  have hwp : s.work.wp = 0 := by rw [hs.work]; rfl
  have hbc : s.work.bc = 0 := by rw [hs.work]; rfl
  have hend := fun o => runToEnd_of_degenerate o hs h
  refine ⟨?_, ?_, ?_, ?_⟩
  · obtain ⟨_, ⟨w, rfl, _, _⟩, e⟩ := hend .extract
    exact ⟨_, (exec_operation .extract s).trans (congrArg _ e), rfl, harea, rfl⟩
  · obtain ⟨_, ⟨w, rfl, hw, _⟩, e⟩ := hend .pack
    exact ⟨_, (exec_operation .pack s).trans (congrArg _ e), rfl, hw.trans hwp, rfl⟩
  · obtain ⟨_, ⟨w, rfl, hw, _⟩, e⟩ := hend .encode
    exact ⟨_, (exec_operation .encode s).trans (congrArg _ e), rfl, hw.trans hwp, rfl⟩
  · obtain ⟨_, ⟨w, rfl, _, hw⟩, e⟩ := hend .decode
    exact ⟨_, (exec_operation .decode s).trans (congrArg _ e),
      finishDecode_of_nothing_read (s := s.withWork w) harea (hw.trans hbc)⟩

end Sys2Proof.Machine
end

section
/-! SUPPORT. Proofs about the row encoder (R92 to R109): what the decoder reads in one emitted block, and from which
cursor of its row each byte of an encoded row comes. -/

namespace Sys2Proof.Machine

/-! ### One emission -/

/-- The Run that the encoder emits at cursor `x`: over equal bits of the row, covering the window (R106), and maximal up to
the cap of 64 (R97, R104). -/
structure MaximalRun (R : Row) (x run : Nat) : Prop where
  pos : 1 ≤ run
  le_cap : run ≤ 64
  in_row : x + run ≤ R.length
  covers_window : min 7 (R.length - x) ≤ run
  equal : ∀ i, i < run → bitAt R (x + i) = bitAt R x
  maximal : run = 64 ∨ x + run = R.length ∨ bitAt R (x + run) ≠ bitAt R x

section
variable {R : Row} {x : Nat} (hx : x < R.length)
include hx

/-- `EMIT_RUN`, read back by the decoder (R97). -/
theorem encBlock_of_uniform (hu : uniformAt R x = true) :
    ∃ run, MaximalRun R x run ∧ decodeBlock (encBlock R x).1 = .run (bitAt R x) run ∧ (encBlock R x).2 = x + run := by
  rcases encBlock_cases R hx with ⟨_, run, hpos, hcap, hrow, hwin, e, hequal, hmax⟩ | ⟨hmixed, _⟩
  · rw [e]
    exact ⟨run, ⟨hpos, hcap, hrow, hwin, hequal, hmax⟩, decodeBlock_runByte _ hpos hcap, rfl⟩
  · exact absurd hu (Bool.eq_false_iff.mp hmixed)

/-- `EMIT_LIT`, read back by the decoder (R96, R99). -/
theorem encBlock_of_mixed (hm : uniformAt R x = false) :
    ∃ p, decodeBlock (encBlock R x).1 = .lit p ∧ (encBlock R x).2 = min (x + 7) R.length
      ∧ ∀ i, i < 7 → p.getLsbD (6 - i) = (if i < min 7 (R.length - x) then bitAt R (x + i) else false) := by
  rcases encBlock_cases R hx with ⟨hu, _⟩ | ⟨_, e⟩
  · exact absurd hu (Bool.eq_false_iff.mp hm)
  · have hlen : (windowAt R x).length ≤ 7 := by rw [windowAt_length]; exact min_le_left ..
    obtain ⟨hlit, hbits⟩ := decodeBlock_litByte hlen
    rw [e]
    exact ⟨_, hlit, rfl, fun i hi => (hbits i hi).trans (windowAt_getD R x i)⟩

/-- A block read as a Run was emitted for a maximal Run of the bit at the cursor. -/
theorem maximalRun_of_decodeBlock {v : Bit} {n : Nat} (hb : decodeBlock (encBlock R x).1 = .run v n) :
    MaximalRun R x n ∧ bitAt R x = v ∧ (encBlock R x).2 = x + n := by
  cases hu : uniformAt R x with
  | true =>
    obtain ⟨run, hrun, hdec, hcur⟩ := encBlock_of_uniform hx hu
    obtain ⟨hv, rfl⟩ := Block.run.inj (hdec.symm.trans hb)
    exact ⟨hrun, hv, hcur⟩
  | false =>
    obtain ⟨p, hdec, _⟩ := encBlock_of_mixed hx hu
    exact nomatch hdec.symm.trans hb

/-- A Literal is emitted only for a mixed window (R105), so its payload's seven bits are not all equal (R109). -/
theorem payload_mixed_of_decodeBlock {p : BitVec 7} (hb : decodeBlock (encBlock R x).1 = .lit p) (c : Bit) :
    ¬ ∀ i, i < 7 → p.getLsbD (6 - i) = c := by
  intro hc
  cases hu : uniformAt R x with
  | true =>
    obtain ⟨run, _, hdec, _⟩ := encBlock_of_uniform hx hu
    exact nomatch hdec.symm.trans hb
  | false =>
    obtain ⟨q, hdec, _, hbits⟩ := encBlock_of_mixed hx hu
    obtain rfl := Block.lit.inj (hdec.symm.trans hb)
    have hwin : ∀ i, i < min 7 (R.length - x) → bitAt R (x + i) = c := fun i hi => by
      rw [← hc i (by omega), hbits i (by omega), if_pos hi]
    have huniform := (uniformAt_iff R x).mpr fun i hi => (hwin i hi).trans (hwin 0 (by omega)).symm
    exact Bool.false_ne_true (hu.symm.trans huniform)

/-- Every step covers the window and at most 64 positions, and stays in the row (R108). -/
theorem encBlock_advance :
    x + min 7 (R.length - x) ≤ (encBlock R x).2 ∧ (encBlock R x).2 ≤ x + 64 ∧ (encBlock R x).2 ≤ R.length := by
  cases hu : uniformAt R x with
  | true =>
    obtain ⟨run, hrun, _, hcur⟩ := encBlock_of_uniform hx hu
    have := hrun.covers_window
    have := hrun.le_cap
    have := hrun.in_row
    omega
  | false =>
    obtain ⟨_, _, hcur, _⟩ := encBlock_of_mixed hx hu
    omega

end

/-- Settles O26: the two emissions, by the uniformity of the window. -/
theorem encoderEmitsRunOrLiteral : Obligations.EncoderEmitsRunOrLiteral := by
  intro R x hx
  constructor
  · intro hu
    obtain ⟨run, hrun, hdec, hcur⟩ := encBlock_of_uniform hx ((uniformAt_iff R x).mpr hu)
    exact ⟨run, hdec, hcur, hrun.pos, hrun.le_cap, hrun.in_row, hrun.equal, hrun.maximal⟩
  · intro hm
    exact encBlock_of_mixed hx (Bool.eq_false_iff.mpr fun hu => hm ((uniformAt_iff R x).mp hu))

/-! ### The blocks of a row -/

/-- A byte of the encoder's output comes from a cursor in the row, and the bytes after it from the cursor's successor. -/
theorem encFrom_getElem? {R : Row} {n x k : Nat} {a : Byte} (hn : R.length - x ≤ n)
    (h : (encFrom R n x)[k]? = some a) :
    ∃ y < R.length, a = (encBlock R y).1 ∧ (encFrom R n x).drop (k + 1) = encFrom R R.length (encBlock R y).2 := by
  induction n generalizing x k with
  | zero => simp [encFrom] at h
  | succ n ih =>
    by_cases hx : x < R.length
    · have hcur := encBlock_cursor R hx
      have hrest : R.length - (encBlock R x).2 ≤ n := by omega
      rw [encFrom_go R n hx] at h ⊢
      cases k with
      | zero => exact ⟨x, hx, (Option.some.inj h).symm, encFrom_bound R hrest (Nat.sub_le ..)⟩
      | succ k => exact ih hrest h
    · rw [encFrom_stop R (n + 1) (Nat.le_of_not_lt hx)] at h
      simp at h

theorem encRow_getElem? {R : Row} {k : Nat} {a : Byte} (h : (encRow R)[k]? = some a) :
    ∃ y < R.length, a = (encBlock R y).1 ∧ (encRow R).drop (k + 1) = encFrom R R.length (encBlock R y).2 :=
  encFrom_getElem? (Nat.sub_le ..) h

/-- The first byte emitted from cursor `x` on is that of the block at `x`. -/
theorem encFrom_head? {R : Row} {n x : Nat} {a : Byte} (h : (encFrom R n x)[0]? = some a) :
    x < R.length ∧ a = (encBlock R x).1 := by
  cases n with
  | zero => simp [encFrom] at h
  | succ n =>
    by_cases hx : x < R.length
    · rw [encFrom_go R n hx] at h
      exact ⟨hx, (Option.some.inj h).symm⟩
    · rw [encFrom_stop R (n + 1) (Nat.le_of_not_lt hx)] at h
      simp at h

/-- Settles O34: such a Run does not cover 7 positions, so its window ends with the row. -/
theorem shortRunEndsRow : Obligations.ShortRunEndsRow := by
  intro R k a v n ha hrun hn
  obtain ⟨y, hy, rfl, hrest⟩ := encRow_getElem? ha
  obtain ⟨hmax, _, hcur⟩ := maximalRun_of_decodeBlock hy hrun
  have hwin := hmax.covers_window
  rw [encFrom_stop R _ (by omega), List.drop_eq_nil_iff] at hrest
  have hk : k < (encRow R).length := (List.getElem?_eq_some_iff.mp ha).1
  omega

/-- Settles O33: a Run below 64 that is not the last stops at a bit of the other value, where the next block starts. -/
theorem runsAreMaximal : Obligations.RunsAreMaximal := by
  refine ⟨fun R k a b v n m ha hb hva hvb => ?_, by decide⟩
  obtain ⟨y, hy, rfl, hrest⟩ := encRow_getElem? ha
  obtain ⟨hmax, hv, hcur⟩ := maximalRun_of_decodeBlock hy hva
  have hnext : (encFrom R R.length (y + n))[0]? = some b := by
    rw [← hcur, ← hrest, List.getElem?_drop]
    exact hb
  obtain ⟨hin, rfl⟩ := encFrom_head? hnext
  obtain ⟨_, hv', _⟩ := maximalRun_of_decodeBlock hin hvb
  rcases hmax.maximal with h64 | hend | hdiff
  · exact h64
  · exact absurd hend hin.ne
  · exact absurd (hv'.trans hv.symm) hdiff

/-! ### The size of an encoded row -/

/-- The blocks for the rest of a row, by the least and the greatest advance of a step. -/
theorem encFrom_length_bounds (R : Row) {n x : Nat} (hn : R.length - x ≤ n) :
    (R.length - x + 63) / 64 ≤ (encFrom R n x).length ∧ (encFrom R n x).length ≤ (R.length - x + 6) / 7 := by
  induction n generalizing x with
  | zero => rw [encFrom, List.length_nil]; omega
  | succ n ih =>
    by_cases hx : x < R.length
    · have hadv := encBlock_advance hx
      have hrest := ih (x := (encBlock R x).2) (by omega)
      rw [encFrom_go R n hx, List.length_cons]
      omega
    · rw [encFrom_stop R (n + 1) (Nat.le_of_not_lt hx), List.length_nil]
      omega

/-- Settles O31: the blocks from the first cursor on. -/
theorem encodedRowSizeBounds : Obligations.EncodedRowSizeBounds := fun R =>
  encFrom_length_bounds R (x := 0) (Nat.sub_le ..)

/-- Settles O30: neither loop enters its body on a row of width 0. -/
theorem emptyRowNeedsNoBlock : Obligations.EmptyRowNeedsNoBlock := by
  refine ⟨rfl, fun B => ?_⟩
  cases B with
  | nil => rfl
  | cons b bs => rfl

/-! ### The bytes an encoded row can hold -/

theorem decodeBlock_injective : Function.Injective decodeBlock := fun a b h =>
  congrArg Prod.snd <| (encode_decodeBlock a).symm.trans <| h ▸ encode_decodeBlock b

theorem encBlock_mem_encRow {R : Row} (hR : 0 < R.length) : (encBlock R 0).1 ∈ encRow R := by
  obtain ⟨n, hn⟩ := Nat.exists_eq_succ_of_ne_zero hR.ne'
  rw [encRow, hn, encFrom_go R n hR]
  exact List.mem_cons_self

/-- No byte of an encoded row is a Literal whose seven bits are all equal. -/
theorem literal_notMem_encRow {R : Row} {b : Byte} {p : BitVec 7} (hb : decodeBlock b = .lit p) (c : Bit)
    (hc : ∀ i, i < 7 → p.getLsbD (6 - i) = c) : b ∉ encRow R := by
  intro hmem
  obtain ⟨k, hk⟩ := List.mem_iff_getElem?.mp hmem
  obtain ⟨y, hy, rfl, _⟩ := encRow_getElem? hk
  exact payload_mixed_of_decodeBlock hy hb c hc

/-- A uniform row of at most 64 bits is one Run. -/
theorem decodeBlock_encBlock_replicate (v : Bit) {n : Nat} (h1 : 1 ≤ n) (h64 : n ≤ 64) :
    decodeBlock (encBlock (List.replicate n v) 0).1 = .run v n := by
  have hbit : ∀ i, i < n → bitAt (List.replicate n v) i = v := fun i hi => by simp [bitAt, hi]
  have hlen : (List.replicate n v).length = n := List.length_replicate
  have hx : 0 < (List.replicate n v).length := by omega
  have hu : uniformAt (List.replicate n v) 0 = true := (uniformAt_iff _ _).mpr fun i hi => by
    rw [hbit _ (by omega), hbit 0 h1]
  obtain ⟨run, hrun, hdec, _⟩ := encBlock_of_uniform hx hu
  have hrow := hrun.in_row
  obtain rfl : run = n := by
    rcases hrun.maximal with h | h | h
    · omega
    · omega
    · by_contra hne
      exact h (by rw [hbit _ (by omega), hbit 0 h1])
  rw [hdec, hbit 0 h1]

/-- A row of seven bits that are not all equal is one Literal of them. -/
theorem decodeBlock_encBlock_litBits {p : BitVec 7} (hp : ∀ c : Bit, ¬ ∀ i, i < 7 → p.getLsbD (6 - i) = c) :
    decodeBlock (encBlock (litBits p) 0).1 = .lit p := by
  have hbit : ∀ i, i < 7 → bitAt (litBits p) (0 + i) = p.getLsbD (6 - i) := fun i hi => by
    rw [Nat.zero_add]; exact litBits_getD p hi
  have hm : uniformAt (litBits p) 0 = false := Bool.eq_false_iff.mpr fun hu =>
    hp _ fun i hi => (hbit i hi).symm.trans ((uniformAt_iff _ _).mp hu i hi)
  have hx : 0 < (litBits p).length := Nat.succ_pos 6
  obtain ⟨q, hdec, _, hbits⟩ := encBlock_of_mixed hx hm
  rw [hdec, Block.lit.injEq]
  refine BitVec.eq_of_getLsbD_eq fun i hi => ?_
  have h := (hbits (6 - i) (by omega)).trans ((if_pos (by simp; omega)).trans (hbit (6 - i) (by omega)))
  rwa [Nat.sub_sub_self (by omega)] at h

/-- The bytes `00` and `7F` are the Literals of seven equal bits. -/
theorem payload_mixed {b : Byte} {p : BitVec 7} (hb : decodeBlock b = .lit p) (h0 : b ≠ 0x00#8) (h7F : b ≠ 0x7F#8)
    (c : Bit) : ¬ ∀ i, i < 7 → p.getLsbD (6 - i) = c := by
  intro hc
  have hp : p = if c then 0x7F#7 else 0#7 := BitVec.eq_of_getLsbD_eq fun i hi => by
    have h := hc (6 - i) (by omega)
    rw [Nat.sub_sub_self (by omega)] at h
    rw [h]
    cases c <;> interval_cases i <;> rfl
  subst hp
  cases c with
  | false => exact h0 (decodeBlock_injective (hb.trans (by decide)))
  | true => exact h7F (decodeBlock_injective (hb.trans (by decide)))

/-- Every byte but `00` and `7F` stands in the encoding of the bits it decodes to. -/
theorem mem_encRow_blockBits {b : Byte} (h0 : b ≠ 0x00#8) (h7F : b ≠ 0x7F#8) :
    b ∈ encRow (blockBits (decodeBlock b)) := by
  have hblock : decodeBlock (encBlock (blockBits (decodeBlock b)) 0).1 = decodeBlock b := by
    cases hb : decodeBlock b with
    | lit p => exact decodeBlock_encBlock_litBits (payload_mixed hb h0 h7F)
    | run v n =>
      have hwf := decodeBlock_wf b
      rw [hb] at hwf
      obtain ⟨h1, h64⟩ := Instr.wf_run.mp hwf
      exact decodeBlock_encBlock_replicate v h1 h64
  have hmem := encBlock_mem_encRow (blockBits_length b).1
  rwa [decodeBlock_injective hblock] at hmem

/-- Settles O32: the two bytes are Literals of equal bits; every other byte stands in the encoding of the
bits it decodes to. -/
theorem encoderNeverEmitsUniformLiteral : Obligations.EncoderNeverEmitsUniformLiteral := by
  refine ⟨fun R => ⟨?_, ?_⟩, fun b h0 h7F => ⟨_, mem_encRow_blockBits h0 h7F⟩⟩
  · exact literal_notMem_encRow (p := 0#7) (by decide) false (by decide)
  · exact literal_notMem_encRow (p := 0x7F#7) (by decide) true (by decide)

end Sys2Proof.Machine
end

section
/-! SUPPORT. Proofs about the row decoder (R112 to R126): what a block appends, when the block loop ends and with what,
and that it reads an encoded row back. -/

namespace Sys2Proof.Machine

/-! ### One block -/

/-- The payload of a byte with bit 7 clear, by the byte's own bits (R64, R116). -/
theorem litBits_extract (b : Byte) : litBits (b.extractLsb' 0 7) =
    [b.getLsbD 6, b.getLsbD 5, b.getLsbD 4, b.getLsbD 3, b.getLsbD 2, b.getLsbD 1, b.getLsbD 0] := by
  simp [litBits]

/-- Settles O13: a byte with bit 7 clear is a Literal of its other bits. -/
theorem litAppendsSevenBits : Obligations.LitAppendsSevenBits := by
  refine ⟨fun p s => exec_block (.lit p) s, fun b s hb => ?_⟩
  rw [exec_block, decodeBlock_of_top_clear hb, blockBits, litBits_extract]
  rfl

/-- Settles O14: a byte with bit 7 set is a Run of its two fields. -/
theorem runAppendsCopies : Obligations.RunAppendsCopies := by
  refine ⟨fun v len s => exec_block (.run v len) s, fun b s hb => ?_⟩
  rw [exec_block, decodeBlock_of_top_set hb]
  rfl

/-- An instruction that is a `LIT` or a `RUN` is a block. -/
theorem exists_block_of_lit_or_run {i : Instr} (h : (∃ p, i = .lit p) ∨ ∃ v len, i = .run v len) :
    ∃ b : Block, i = b.toInstr := by
  rcases h with ⟨p, rfl⟩ | ⟨v, len, rfl⟩
  · exact ⟨.lit p, rfl⟩
  · exact ⟨.run v len, rfl⟩

/-- Settles O15: a block's next state is the state with bits appended to `BUF`. -/
theorem blocksChangeOnlyBuf : Obligations.BlocksChangeOnlyBuf := by
  intro i s t hi h
  obtain ⟨b, rfl⟩ := exists_block_of_lit_or_run hi
  obtain rfl := Host.Outcome.next.inj ((exec_block b s).symm.trans h)
  exact ⟨rfl, fun _ => rfl, fun _ => rfl, fun _ => rfl⟩

/-! ### The block loop -/

section
variable {W : Nat} {buf : Row}

/-- The row is complete: truncate it and stop (R113, R117). -/
theorem decFrom_of_complete (h : W ≤ buf.length) (k : Nat) (B : List Byte) : decFrom W buf k B = some (buf.take W, k) := by
  cases B with
  | nil => rw [decFrom, if_pos h]
  | cons b bs => rw [decFrom, if_pos h]

/-- A byte is needed and none is left (R114). -/
theorem decFrom_nil_of_short (h : buf.length < W) (k : Nat) : decFrom W buf k [] = none := by
  rw [decFrom, if_neg (Nat.not_le.mpr h)]

/-- A byte is needed and read (R114 to R116). -/
theorem decFrom_cons_of_short (h : buf.length < W) (k : Nat) (b : Byte) (bs : List Byte) :
    decFrom W buf k (b :: bs) = decFrom W (buf ++ blockBits (decodeBlock b)) (k + 1) bs := by
  rw [decFrom, if_neg (Nat.not_le.mpr h)]

end

/-- Induction along the block loop, by the three things its next step can be (`DecPhase` within a row). -/
theorem decFrom_induction {W : Nat} {motive : Row → Nat → List Byte → Prop}
    (complete : ∀ buf k B, W ≤ buf.length → motive buf k B)
    (exhausted : ∀ buf k, buf.length < W → motive buf k [])
    (block : ∀ buf k b bs, buf.length < W → motive (buf ++ blockBits (decodeBlock b)) (k + 1) bs → motive buf k (b :: bs))
    (buf : Row) (k : Nat) (B : List Byte) : motive buf k B := by
  induction B generalizing buf k with
  | nil => exact (Nat.lt_or_ge buf.length W).elim (exhausted buf k) (complete buf k [])
  | cons b bs ih =>
    rcases Nat.lt_or_ge buf.length W with h | h
    · exact block buf k b bs h (ih _ _)
    · exact complete buf k _ h

/-- The loop fails where `BUF` and the bits of all the bytes left are fewer than the width. -/
theorem decFrom_eq_none_iff (W : Nat) (buf : Row) (k : Nat) (B : List Byte) :
    decFrom W buf k B = none ↔ buf.length + (B.flatMap fun b => blockBits (decodeBlock b)).length < W := by
  induction buf, k, B using decFrom_induction (W := W) with
  | complete buf k B h =>
    rw [decFrom_of_complete h]
    exact iff_of_false (Option.some_ne_none _) (by omega)
  | exhausted buf k h => simpa [decFrom_nil_of_short h] using h
  | block buf k b bs h ih =>
    rw [decFrom_cons_of_short h, ih, List.flatMap_cons, List.length_append, List.length_append, Nat.add_assoc]

/-- Settles O36: the loop from an empty `BUF`. -/
theorem rowDecodeFailsOnlyWhenShort : Obligations.RowDecodeFailsOnlyWhenShort := by
  intro W B
  rw [decRow, decFrom_eq_none_iff, List.length_nil, Nat.zero_add]

/-- The loop's row is of the width, and its count grows by at most the bytes left, by at least one for every 64 positions
that were missing and by at most one for each of them (a block appends 1 to 64 bits). -/
theorem decFrom_bounds {W : Nat} {buf : Row} {k : Nat} {B : List Byte} {row : Row} {m : Nat}
    (h : decFrom W buf k B = some (row, m)) :
    row.length = W ∧ k ≤ m ∧ m ≤ k + B.length ∧ W - buf.length ≤ 64 * (m - k) ∧ m - k ≤ W - buf.length := by
  induction buf, k, B using decFrom_induction (W := W) with
  | complete buf k B hW =>
    obtain ⟨rfl, rfl⟩ := Prod.mk.inj (Option.some.inj ((decFrom_of_complete hW k B).symm.trans h))
    rw [List.length_take]
    omega
  | exhausted buf k hW => exact nomatch (decFrom_nil_of_short hW k).symm.trans h
  | block buf k b bs hW ih =>
    obtain ⟨hrow, hcount⟩ := ih ((decFrom_cons_of_short hW k b bs).symm.trans h)
    have hbits := blockBits_length b
    rw [List.length_append] at hcount
    rw [List.length_cons]
    omega

/-- Settles O35: the loop from an empty `BUF`. -/
theorem decodedRowHasDeclaredWidth : Obligations.DecodedRowHasDeclaredWidth := by
  intro W B row k h
  have := decFrom_bounds h
  rw [List.length_nil] at this
  omega

/-- The loop's answer depends only on the bytes that it counts. -/
theorem decFrom_take_append {W : Nat} {buf : Row} {k : Nat} {B : List Byte} {row : Row} {m : Nat}
    (h : decFrom W buf k B = some (row, m)) (C : List Byte) : decFrom W buf k (B.take (m - k) ++ C) = some (row, m) := by
  induction buf, k, B using decFrom_induction (W := W) with
  | complete buf k B hW => rw [decFrom_of_complete hW] at h ⊢; exact h
  | exhausted buf k hW => exact nomatch (decFrom_nil_of_short hW k).symm.trans h
  | block buf k b bs hW ih =>
    rw [decFrom_cons_of_short hW] at h
    obtain ⟨_, hle, _⟩ := decFrom_bounds h
    rw [show m - k = m - (k + 1) + 1 by omega, List.take_succ_cons, List.cons_append, decFrom_cons_of_short hW]
    exact ih h

/-- Settles O37: the loop counts from 0. -/
theorem rowDecodeReadsOnlyConsumedBytes : Obligations.RowDecodeReadsOnlyConsumedBytes :=
  fun _ _ _ _ h C => decFrom_take_append h C

/-! ### Reading an encoded row back -/

/-- A Literal's window and its zero bits, cut at the row's end, lead from the row up to the cursor to the row up to the
next cursor: zeros stand only past the row's end (R96, R117). -/
theorem take_append_paddedWindow (R : Row) {x : Nat} (hx : x < R.length) :
    (R.take x ++ (windowAt R x ++ List.replicate (7 - (windowAt R x).length) false)).take R.length
      = R.take (min (x + 7) R.length) := by
  rw [← List.append_assoc, take_append_window, windowAt_length]
  rcases Nat.le_total (x + 7) R.length with h | h
  · rw [show min 7 (R.length - x) = 7 by omega, Nat.sub_self, List.replicate_zero, List.append_nil,
      List.take_take, Nat.min_comm]
  · rw [show x + min 7 (R.length - x) = R.length by omega, List.take_length, List.take_left, Nat.min_eq_right h,
      List.take_length]

/-- The block emitted at a cursor, executed on the row up to that cursor, gives the row up to the next cursor, once cut
at the row's end. -/
theorem take_append_encBlock (R : Row) {x : Nat} (hx : x < R.length) :
    (R.take x ++ blockBits (decodeBlock (encBlock R x).1)).take R.length = R.take (encBlock R x).2 := by
  rcases encBlock_cases R hx with ⟨_, run, hpos, hcap, hrow, _, e, hequal, _⟩ | ⟨_, e⟩
  · rw [e, decodeBlock_runByte _ hpos hcap, blockBits, ← take_append_run R hrow hequal, List.take_take,
      Nat.min_eq_right hrow]
  · have hwin : (windowAt R x).length ≤ 7 := by rw [windowAt_length]; exact min_le_left ..
    rw [e, (decodeBlock_litByte hwin).1, blockBits, litBits_litByte hwin, take_append_paddedWindow R hx]

/-- Before the row's end the cut takes nothing off `BUF`. -/
theorem buf_eq_of_take_eq {R buf : Row} {x : Nat} (hx : x < R.length) (h : buf.take R.length = R.take x) :
    buf = R.take x := by
  have hlen := congrArg List.length h
  rw [List.length_take, List.length_take] at hlen
  rw [← h, List.take_of_length_le (by omega)]

/-- At the row's end the encoder emits nothing more and the decoder stops. -/
theorem decFrom_encFrom_rowEnd {R buf : Row} (hbuf : buf.take R.length = R.take R.length) (n k : Nat) (rest : List Byte) :
    decFrom R.length buf k (encFrom R n R.length ++ rest) = some (R, k + (encFrom R n R.length).length) := by
  rw [List.take_length] at hbuf
  have hlen := congrArg List.length hbuf
  rw [List.length_take] at hlen
  rw [decFrom_of_complete (by omega), hbuf, encFrom_stop R n (le_refl _)]
  rfl

/-- The decoder's loop on what the encoder emits from cursor `x` on, where `BUF`, cut at the row's end, is the row up to
`x`. Before the row's end `BUF` is exactly that; only after the last block it can be longer. -/
theorem decFrom_encFrom {R buf : Row} {n x : Nat} (hn : R.length - x ≤ n) (hx : x ≤ R.length)
    (hbuf : buf.take R.length = R.take x) (k : Nat) (rest : List Byte) :
    decFrom R.length buf k (encFrom R n x ++ rest) = some (R, k + (encFrom R n x).length) := by
  induction n generalizing x buf k with
  | zero =>
    obtain rfl : x = R.length := by omega
    exact decFrom_encFrom_rowEnd hbuf 0 k rest
  | succ n ih =>
    rcases Nat.lt_or_ge x R.length with hlt | hge
    · obtain rfl : buf = R.take x := buf_eq_of_take_eq hlt hbuf
      have hshort : (R.take x).length < R.length := by rw [List.length_take]; omega
      obtain ⟨hgrows, hin⟩ := encBlock_cursor R hlt
      rw [encFrom_go R n hlt, List.cons_append, decFrom_cons_of_short hshort,
        ih (by omega) hin (take_append_encBlock R hlt) (k + 1), List.length_cons, Nat.add_assoc, Nat.add_comm 1]
    · obtain rfl : x = R.length := by omega
      exact decFrom_encFrom_rowEnd hbuf (n + 1) k rest

/-- Settles O42: the loop from the first cursor on. -/
theorem rowRoundTrip : Obligations.RowRoundTrip := fun R rest => by
  have h := decFrom_encFrom (buf := []) (Nat.sub_le R.length 0) (Nat.zero_le _) List.take_nil 0 rest
  rwa [Nat.zero_add] at h

end Sys2Proof.Machine
end

section
/-! SUPPORT. Proofs about the plane codec as functions (R130 to R137): the rows one after another, their number of bytes,
and that the decoder reads them back. -/

namespace Sys2Proof.Machine

/-! ### The row loop of `decode_plane` -/

/-- What a row loop gives with `done` rows and `k` bytes before it. -/
def addRows (done : List Row) (k : Nat) (p : List Row × Nat) : List Row × Nat := (done ++ p.1, k + p.2)

@[simp] theorem map_addRows_zero (e : Except DecFail (List Row × Nat)) : e.map (addRows [] 0) = e := by
  cases e with
  | error f => rfl
  | ok p => exact congrArg Except.ok (Prod.ext rfl (Nat.zero_add p.2))

theorem map_addRows_addRows (done done' : List Row) (k k' : Nat) (e : Except DecFail (List Row × Nat)) :
    (e.map (addRows done' k')).map (addRows done k) = e.map (addRows (done ++ done') (k + k')) := by
  cases e with
  | error f => rfl
  | ok p => exact congrArg Except.ok (Prod.ext (List.append_assoc ..).symm (Nat.add_assoc ..).symm)

section
variable {W h r : Nat} {bs : List Byte}

/-- The loop goes on behind a row that is decoded (R133). -/
theorem decRows_succ_of_some {row : Row} {k : Nat} (hrow : decRow W bs = some (row, k)) :
    decRows W (h + 1) r bs = (decRows W h (r + 1) (bs.drop k)).map (addRows [row] k) := by
  rw [decRows, hrow]
  dsimp only
  cases decRows W h (r + 1) (bs.drop k) <;> rfl

/-- The loop stops at the row in which the stream runs out (R133, R165). -/
theorem decRows_succ_of_none (hrow : decRow W bs = none) : decRows W (h + 1) r bs = .error (.truncated r) := by
  rw [decRows, hrow]

end

/-! ### The end check -/

section
variable {W H used r : Nat} {B : List Byte} {strict : Bool} {rows : List Row}

/-- In strict mode bytes that remain make the plane decode fail (R134, R166). -/
theorem decPlane_of_trailing (hrows : decRows W H 0 B = .ok (rows, used)) (h : strict = true ∧ used ≠ B.length) :
    decPlane B W H strict = .error (.trailing used) := by
  rw [decPlane, hrows]
  exact if_pos (by simpa using h)

/-- Otherwise it gives the rows (R133). -/
theorem decPlane_of_complete (hrows : decRows W H 0 B = .ok (rows, used)) (h : ¬ (strict = true ∧ used ≠ B.length)) :
    decPlane B W H strict = .ok (rows, used) := by
  rw [decPlane, hrows]
  exact if_neg (by simpa using h)

/-- The row loop's failure is the plane decode's (R165). -/
theorem decPlane_of_truncated (hrows : decRows W H 0 B = .error (.truncated r)) :
    decPlane B W H strict = .error (.truncated r) := by
  rw [decPlane, hrows]

end

/-! ### The encoded plane -/

theorem encPlane_cons (R : Row) (rows : List Row) : encPlane (R :: rows) = encRow R ++ encPlane rows := rfl

/-- A row's bounds (R108), for every row of the plane. -/
theorem encPlane_length_bounds {W : Nat} {rows : List Row} (hW : ∀ R ∈ rows, R.length = W) :
    rows.length * ((W + 63) / 64) ≤ (encPlane rows).length
      ∧ (encPlane rows).length ≤ rows.length * ((W + 6) / 7) := by
  induction rows with
  | nil => simp [encPlane]
  | cons R rows ih =>
    obtain ⟨hR, hrows⟩ := List.forall_mem_cons.mp hW
    have hrow := encodedRowSizeBounds R
    have hrest := ih hrows
    rw [hR] at hrow
    rw [encPlane_cons, List.length_append, List.length_cons, Nat.succ_mul, Nat.succ_mul]
    omega

/-- Each row is read back (R126), and the next one begins behind it, whatever follows the plane. -/
theorem decRows_encPlane {W : Nat} {rows : List Row} (hW : ∀ R ∈ rows, R.length = W) (r : Nat) (rest : List Byte) :
    decRows W rows.length r (encPlane rows ++ rest) = .ok (rows, (encPlane rows).length) := by
  induction rows generalizing r with
  | nil => rfl
  | cons R rows ih =>
    obtain ⟨rfl, hrows⟩ := List.forall_mem_cons.mp hW
    have hrow := rowRoundTrip R (encPlane rows ++ rest)
    rw [encPlane_cons, List.append_assoc, List.length_cons, decRows_succ_of_some hrow, List.drop_left, ih hrows,
      List.length_append]
    rfl

/-- Settles O43: no byte remains for the end check. -/
theorem planeRoundTrip : Obligations.PlaneRoundTrip := by
  intro rows W strict hW
  have hrows := decRows_encPlane hW 0 []
  rw [List.append_nil] at hrows
  exact decPlane_of_complete hrows fun h => h.2 rfl

/-! ### The grid and the stream of a state -/

@[simp] theorem State.grid_length (s : State) : s.grid.length = s.height := by simp [State.grid]

theorem State.row_length_of_mem_grid {s : State} {R : Row} (h : R ∈ s.grid) : R.length = s.width := by
  obtain ⟨r, -, rfl⟩ := List.mem_map.mp h
  exact s.row_length r

@[simp] theorem State.stream_length (s : State) : s.stream.length = s.bytesLen := by simp [State.stream]

/-- The grid from row `r` on. -/
theorem State.grid_drop (s : State) {r : Nat} (hr : r < s.height) : s.grid.drop r = s.row r :: s.grid.drop (r + 1) := by
  rw [List.drop_eq_getElem_cons (by simpa using hr)]
  simp [State.grid]

/-- The stream from a cursor on (R114). -/
theorem State.stream_drop (s : State) {k : Nat} (hk : k < s.bytesLen) :
    s.stream.drop k = s.byteAt k :: s.stream.drop (k + 1) := by
  rw [List.drop_eq_getElem_cons (by simpa using hk)]
  simp [State.stream]

/-- The cell of the grid at row `r`, column `c` (R42). -/
theorem State.grid_cell (s : State) {r c : Nat} (hr : r < s.height) (hc : c < s.width) :
    (s.grid.getD r []).getD c false = s.maskAt (r * s.width + c) := by
  simp [State.grid, State.row, State.index, hr, hc]

/-- Every element of the grid is such a cell (R42). -/
theorem exists_cell {a w h : Nat} (ha : a < w * h) : ∃ r c, r < h ∧ c < w ∧ a = r * w + c :=
  ⟨a / w, a % w, Nat.div_lt_of_lt_mul ha, Nat.mod_lt _ (Nat.pos_of_lt_mul_right ha), (Nat.div_add_mod' a w).symm⟩

end Sys2Proof.Machine
end

section
/-! SUPPORT. Proofs about the run of `ENCODE` (R130 to R132): what it has emitted, and what it has still to emit. -/

namespace Sys2Proof.Machine

/-! ### The bytes still to come -/

/-- The bytes `ENCODE` emits for these rows, from cursor `x` of the first on (R131). -/
def encPlaneFrom (x : Nat) : List Row → List Byte
  | []        => []
  | R :: rows => encFrom R R.length x ++ encPlane rows

theorem encPlaneFrom_zero (rows : List Row) : encPlaneFrom 0 rows = encPlane rows := by cases rows <;> rfl

/-- At a row's end the next row begins at its first bit. -/
theorem encPlaneFrom_rowEnd {R : Row} {x : Nat} (hx : R.length ≤ x) (rows : List Row) :
    encPlaneFrom x (R :: rows) = encPlaneFrom 0 rows := by
  rw [encPlaneFrom, encFrom_stop R _ hx, List.nil_append, encPlaneFrom_zero]

/-- Within a row the next byte is that of the block at the cursor. -/
theorem encPlaneFrom_block {R : Row} {x : Nat} (hx : x < R.length) (rows : List Row) :
    encPlaneFrom x (R :: rows) = (encBlock R x).1 :: encPlaneFrom (encBlock R x).2 (R :: rows) := by
  rw [encPlaneFrom, encFrom_bound R (Nat.sub_le ..) (by omega : R.length - x ≤ R.length + 1), encFrom_go R _ hx]
  rfl

/-! ### One step -/

/-- One step of `ENCODE`: completion, the end of a row, or one block of the row function. -/
theorem encodeTick_cases_block (s : State) :
    (s.height ≤ s.work.r ∧ encodeTick s = finishBytes s)
    ∨ (s.work.r < s.height ∧ s.width ≤ s.work.x
        ∧ encodeTick s = s.withWork { s.work with r := s.work.r + 1, x := 0 })
    ∨ (s.work.r < s.height ∧ s.work.x < s.width
        ∧ ∃ w, encodeTick s = s.emit (encBlock (s.row s.work.r) s.work.x).1 w
          ∧ w.x = (encBlock (s.row s.work.r) s.work.x).2 ∧ w.r = s.work.r) := by
  rcases encodeTick_cases s with hend | hrow | ⟨hr, hx, _⟩ | ⟨hr, hx, _⟩
  · exact .inl hend
  · exact .inr (.inl hrow)
  · exact .inr (.inr ⟨hr, hx, encodeTick_emits hr hx⟩)
  · exact .inr (.inr ⟨hr, hx, encodeTick_emits hr hx⟩)

theorem State.byteAt_emit (s : State) (b : Byte) (w : Work) (a : Nat) :
    (s.emit b w).byteAt a = if a = s.work.wp then b else s.byteAt a :=
  State.byteAt_putByte s s.work.wp a b

/-! ### The run of `ENCODE` -/

/-- `ENCODE`, begun at `s`, stands at `t`: of the encoded plane it has emitted the bytes before `wp`; those from `wp` on
are what it emits from row `r`, cursor `x` on (R131). -/
structure State.EncodeProgress (s t : State) : Prop where
  frame   : s.withBytesOutputs t = s
  pointer : t.work.wp ≤ (encPlane s.grid).length
  toCome  : (encPlane s.grid).drop t.work.wp = encPlaneFrom t.work.x (s.grid.drop t.work.r)
  bytes   : ∀ a, t.byteAt a = if a < t.work.wp then (encPlane s.grid).getD a 0#8 else s.byteAt a

/-- `t` is where `ENCODE`, begun at `s`, ends (R131). -/
structure State.EncodeDone (s t : State) : Prop where
  frame    : s.withBytesOutputs t = s
  bytes    : ∀ a, t.byteAt a = if a < (encPlane s.grid).length then (encPlane s.grid).getD a 0#8 else s.byteAt a
  bytesLen : t.bytesLen = (encPlane s.grid).length
  status   : t.status = Status.done

section
variable {s t : State}

theorem State.Begun.encodeProgress (h : s.Begun) : s.EncodeProgress s := by
  refine ⟨rfl, ?_, ?_, fun a => ?_⟩ <;> rw [h.work]
  · exact Nat.zero_le _
  · exact (encPlaneFrom_zero _).symm
  · exact (if_neg (Nat.not_lt_zero a)).symm

theorem State.width_of_withBytesOutputs (h : s.withBytesOutputs t = s) : t.width = s.width :=
  (congrArg State.width h :)

theorem State.height_of_withBytesOutputs (h : s.withBytesOutputs t = s) : t.height = s.height :=
  (congrArg State.height h :)

theorem State.row_of_withBytesOutputs (h : s.withBytesOutputs t = s) (r : Nat) : t.row r = s.row r :=
  State.row_congr (congrArg State.mask h :) (congrArg State.width h :) r

theorem State.EncodeProgress.width (h : s.EncodeProgress t) : t.width = s.width :=
  State.width_of_withBytesOutputs h.frame

theorem State.EncodeProgress.height (h : s.EncodeProgress t) : t.height = s.height :=
  State.height_of_withBytesOutputs h.frame

theorem State.EncodeProgress.rowEnd (h : s.EncodeProgress t) (hr : t.work.r < t.height) (hx : t.width ≤ t.work.x)
    {w : Work} (hr' : w.r = t.work.r + 1) (hx' : w.x = 0) (hwp : w.wp = t.work.wp) :
    s.EncodeProgress (t.withWork w) := by
  refine ⟨h.frame, hwp ▸ h.pointer, ?_, hwp ▸ h.bytes⟩
  have htoCome := h.toCome
  rw [s.grid_drop (h.height ▸ hr), encPlaneFrom_rowEnd (by rwa [State.row_length, ← h.width])] at htoCome
  rw [State.withWork_work, hr', hx', hwp, htoCome]

/-- A block is emitted: its byte is the next one of the encoded plane. -/
theorem State.EncodeProgress.block (h : s.EncodeProgress t) (hr : t.work.r < t.height) (hx : t.work.x < t.width)
    {w : Work} (hr' : w.r = t.work.r) (hx' : w.x = (encBlock (s.row t.work.r) t.work.x).2) :
    s.EncodeProgress (t.emit (encBlock (s.row t.work.r) t.work.x).1 w) := by
  have htoCome := h.toCome
  have hgrid := s.grid_drop (h.height ▸ hr)
  rw [hgrid, encPlaneFrom_block (by rwa [State.row_length, ← h.width]), ← hgrid] at htoCome
  have hlt : t.work.wp < (encPlane s.grid).length := by
    by_contra hge
    rw [List.drop_eq_nil_of_le (Nat.le_of_not_lt hge)] at htoCome
    exact nomatch htoCome
  rw [List.drop_eq_getElem_cons hlt] at htoCome
  obtain ⟨hbyte, hrest⟩ := List.cons.inj htoCome
  refine ⟨h.frame, hlt, ?_, fun a => ?_⟩
  · show (encPlane s.grid).drop (t.work.wp + 1) = encPlaneFrom w.x (s.grid.drop w.r)
    rw [hrest, hr', hx']
  · rw [State.byteAt_emit, h.bytes a, ← hbyte]
    show _ = if a < t.work.wp + 1 then _ else _
    rcases Nat.lt_trichotomy a t.work.wp with hbefore | rfl | hafter
    · rw [if_neg hbefore.ne, if_pos hbefore, if_pos (Nat.lt_succ_of_lt hbefore)]
    · rw [if_pos rfl, if_pos (Nat.lt_succ_self _), List.getD_eq_getElem _ _ hlt]
    · rw [if_neg hafter.ne', if_neg hafter.not_gt, if_neg (by omega)]

theorem State.EncodeProgress.finish (h : s.EncodeProgress t) (hr : t.height ≤ t.work.r) :
    s.EncodeDone (finishBytes t) := by
  have htoCome := h.toCome
  rw [List.drop_eq_nil_of_le (as := s.grid) (by rwa [State.grid_length, ← h.height]), encPlaneFrom,
    List.drop_eq_nil_iff] at htoCome
  have hall : t.work.wp = (encPlane s.grid).length := Nat.le_antisymm h.pointer htoCome
  exact ⟨h.frame, hall ▸ h.bytes, hall, rfl⟩

/-- `ENCODE` begun by a `START` completes, with every row encoded (R131). -/
theorem runToEnd_encode (h : s.Begun) : s.EncodeDone (runToEnd encodeTick s) := by
  refine runToEnd_reaches .encode (P := s.EncodeProgress) (fun t hb ht => ?_) h.busy h.encodeProgress
  rcases encodeTick_cases_block t with ⟨hr, e⟩ | ⟨hr, hx, e⟩ | ⟨hr, hx, w, e, hx', hr'⟩ <;> rw [opTick, e]
  · exact .inr ⟨finishBytes_busy t, ht.finish hr⟩
  · exact .inl ⟨hb, ht.rowEnd hr hx rfl rfl rfl⟩
  · rw [State.row_of_withBytesOutputs ht.frame] at hx' ⊢
    exact .inl ⟨hb, ht.block hr hx hr' hx'⟩

end

/-- Settles O28: the run's end and its frame. -/
theorem encodeWritesEncodedPlane : Obligations.EncodeWritesEncodedPlane := by
  intro s hs
  have hdone := runToEnd_encode hs
  refine ⟨_, rfl, fun a ha => ?_, fun a ha => ?_, ?_⟩
  · rw [hdone.bytes, if_pos ha]
  · rw [hdone.bytes, if_neg ha.not_gt]
  · calc { runToEnd encodeTick s with work := s.work, bytes := s.bytes }
        = { s.withBytesOutputs (runToEnd encodeTick s) with
            bytesLen := (runToEnd encodeTick s).bytesLen, status := (runToEnd encodeTick s).status } := rfl
      _ = { s with bytesLen := (encPlane s.grid).length, status := Status.done } := by
        rw [hdone.frame, hdone.bytesLen, hdone.status]

/-- Settles O29: the bounds of the encoded grid. -/
theorem encodedPlaneSizeBounds : Obligations.EncodedPlaneSizeBounds := by
  intro s hs
  refine ⟨_, rfl, ?_⟩
  rw [(runToEnd_encode hs).bytesLen, ← s.grid_length]
  exact encPlane_length_bounds fun _ => State.row_length_of_mem_grid

end Sys2Proof.Machine
end

section
/-! SUPPORT. Proofs about the run of `DECODE` (R133 to R135): which rows stand in `MASK`, what is still to decode, and
that the run ends as the plane decode does. -/

namespace Sys2Proof.Machine

/-! ### The rows before a row -/

/-- The rows of the grid before row `r`. -/
def State.rowsBefore (s : State) (r : Nat) : List Row := (List.range r).map s.row

theorem State.rowsBefore_height (s : State) : s.rowsBefore s.height = s.grid := rfl

theorem State.rowsBefore_succ (s : State) (r : Nat) : s.rowsBefore (r + 1) = s.rowsBefore r ++ [s.row r] := by
  rw [State.rowsBefore, List.range_succ, List.map_append]; rfl

/-! ### The end of a row -/

/-- What the end of a row stores in `MASK` (R135). -/
theorem endRow_maskAt {t : State} (hbuf : t.width ≤ t.work.buf.length) (a : Nat) :
    (endRow t).maskAt a =
      if t.work.r * t.width ≤ a ∧ a < (t.work.r + 1) * t.width then
        (t.work.buf.take t.width).getD (a - t.work.r * t.width) false
      else t.maskAt a := by
  have hput := State.maskAt_putRow t (t.index t.work.r 0) a (t.work.buf.take t.width)
  rw [List.length_take, Nat.min_eq_left hbuf] at hput
  rw [Nat.succ_mul]
  exact hput

/-- Row `r` of `MASK` is then `BUF`, cut at the width. -/
theorem endRow_row_self {t : State} (hbuf : t.width ≤ t.work.buf.length) :
    (endRow t).row t.work.r = t.work.buf.take t.width := by
  refine List.ext_getElem (by rw [State.row_length, List.length_take, Nat.min_eq_left hbuf]; rfl) fun c hc hc' => ?_
  have hcol : c < t.width := by rwa [State.row_length] at hc
  have hcell : (endRow t).maskAt (t.work.r * t.width + c) = (t.work.buf.take t.width).getD c false := by
    rw [endRow_maskAt hbuf, if_pos (by rw [Nat.succ_mul]; omega), Nat.add_sub_cancel_left]
  rw [← List.getD_eq_getElem _ false hc', ← hcell]
  simp only [State.row, List.getElem_map, List.getElem_range]
  rfl

/-- The rows before it are as they were. -/
theorem endRow_row_before {t : State} (hbuf : t.width ≤ t.work.buf.length) {r : Nat} (hr : r < t.work.r) :
    (endRow t).row r = t.row r := by
  refine List.map_congr_left fun c hc => ?_
  have hcol : c < t.width := List.mem_range.mp hc
  have hbefore : r * t.width + c < t.work.r * t.width := rowIndex_lt hr hcol
  exact (endRow_maskAt hbuf _).trans (if_neg fun h => h.1.not_gt hbefore)

theorem endRow_rowsBefore {t : State} (hbuf : t.width ≤ t.work.buf.length) :
    (endRow t).rowsBefore (t.work.r + 1) = t.rowsBefore t.work.r ++ [t.work.buf.take t.width] := by
  rw [State.rowsBefore_succ, endRow_row_self hbuf]
  exact congrArg (· ++ _) (List.map_congr_left fun r hr => endRow_row_before hbuf (List.mem_range.mp hr))

/-! ### The run of `DECODE` -/

/-- `t` with what a running `DECODE` writes as it is in `s`. -/
def State.withDecodeRun (s t : State) : State := { t with mask := s.mask, work := s.work }

/-- `DECODE`, begun at `s`, stands at `t`: it has stored the rows before `r`, read the bytes before `bc0` for them and those
from `bc0` to `bc` for row `r`. The row loop from there on gives what the plane's still gives (`plane`), the block loop
what the row's still gives (`row`) (R113, R133). -/
structure State.DecodeProgress (s t : State) : Prop where
  frame    : s.withDecodeRun t = s
  inGrid   : t.work.r ≤ s.height
  rowStart : t.work.bc0 ≤ t.work.bc
  cursor   : t.work.bc ≤ s.bytesLen
  noRow    : t.work.r = s.height → t.work.bc0 = t.work.bc
  plane    : decRows s.width s.height 0 s.stream =
    (decRows s.width (s.height - t.work.r) t.work.r (s.stream.drop t.work.bc0)).map
      (addRows (t.rowsBefore t.work.r) t.work.bc0)
  row      : decRow s.width (s.stream.drop t.work.bc0) =
    decFrom s.width t.work.buf (t.work.bc - t.work.bc0) (s.stream.drop t.work.bc)
  kept     : ∀ a, t.work.r * s.width ≤ a → t.maskAt a = s.maskAt a

/-- `DECODE`, begun at `s`, takes its last step at `t`: every row is decoded, and the end check is left (R134), or the
stream runs out in row `r` (R165). `u` is the state after it. -/
inductive State.DecodeEnds (s t u : State) : Prop where
  | planeEnd (rows : decRows s.width s.height 0 s.stream = .ok (t.grid, t.work.bc)) (allRows : t.work.r = s.height)
      (step : u = finishDecode t)
  | exhausted (rows : decRows s.width s.height 0 s.stream = .error (.truncated t.work.r))
      (allBytes : t.work.bc = s.bytesLen) (step : u = t.raiseFormat Err.truncated t.work.r)

section
variable {s t : State}

theorem State.Begun.decodeProgress (h : s.Begun) : s.DecodeProgress s := by
  have hw := h.work
  refine ⟨rfl, ?_, ?_, ?_, fun _ => ?_, ?_, ?_, fun _ _ => rfl⟩ <;> rw [hw]
  · exact Nat.zero_le _
  · exact Nat.le_refl _
  · exact Nat.zero_le _
  · rfl
  · exact (map_addRows_zero _).symm
  · rfl

namespace State.DecodeProgress

theorem width (h : s.DecodeProgress t) : t.width = s.width := (congrArg State.width h.frame :)

theorem height (h : s.DecodeProgress t) : t.height = s.height := (congrArg State.height h.frame :)

theorem bytesLen (h : s.DecodeProgress t) : t.bytesLen = s.bytesLen := (congrArg State.bytesLen h.frame :)

theorem mode (h : s.DecodeProgress t) : t.mode = s.mode := (congrArg State.mode h.frame :)

theorem byteAt (h : s.DecodeProgress t) (a : Nat) : t.byteAt a = s.byteAt a :=
  State.byteAt_congr (congrArg State.bytes h.frame :) a

/-- The row is complete: it is stored, and the next one begins at the cursor (R117, R133). -/
theorem rowEnd (h : s.DecodeProgress t) (hr : t.work.r < t.height) (hbuf : t.width ≤ t.work.buf.length) :
    s.DecodeProgress (endRow t) := by
  have hrow := h.row
  rw [decFrom_of_complete (h.width ▸ hbuf)] at hrow
  have hread : t.work.bc0 + (t.work.bc - t.work.bc0) = t.work.bc := Nat.add_sub_cancel' h.rowStart
  refine ⟨h.frame, h.height ▸ hr, Nat.le_refl _, h.cursor, fun _ => rfl, ?_,
    congrArg (decFrom s.width [] · _) (Nat.sub_self t.work.bc).symm, fun a ha => ?_⟩
  · have hplane := h.plane
    rw [h.height] at hr
    rw [show s.height - t.work.r = s.height - (t.work.r + 1) + 1 by omega, decRows_succ_of_some hrow, List.drop_drop,
      map_addRows_addRows, hread, ← h.width, ← endRow_rowsBefore hbuf, h.width] at hplane
    exact hplane
  · change (t.work.r + 1) * s.width ≤ a at ha
    rw [endRow_maskAt hbuf, h.width, if_neg (by omega)]
    exact h.kept a (Nat.le_trans (Nat.mul_le_mul_right _ (Nat.le_succ _)) ha)

/-- A block is executed: the block loop goes on behind its byte (R113 to R116). -/
theorem block (h : s.DecodeProgress t) (hr : t.work.r < t.height) (hbuf : t.work.buf.length < t.width)
    (hbc : t.work.bc < t.bytesLen) : s.DecodeProgress (t.fetched.appendBits (blockBits (decodeBlock t.fetchByte))) := by
  have hrow := h.row
  rw [s.stream_drop (k := t.work.bc) (h.bytesLen ▸ hbc), decFrom_cons_of_short (h.width ▸ hbuf), ← h.byteAt,
    ← Nat.sub_add_comm h.rowStart] at hrow
  exact ⟨h.frame, h.inGrid, Nat.le_succ_of_le h.rowStart, h.bytesLen ▸ hbc,
    fun hend => absurd (h.height ▸ hr) hend.not_lt, h.plane, hrow, h.kept⟩

theorem planeEnd (h : s.DecodeProgress t) (hr : t.height ≤ t.work.r) : s.DecodeEnds t (finishDecode t) := by
  have hall : t.work.r = s.height := Nat.le_antisymm h.inGrid (h.height ▸ hr)
  refine .planeEnd ?_ hall rfl
  have hplane := h.plane
  rw [hall, Nat.sub_self, h.noRow hall, ← h.height, t.rowsBefore_height] at hplane
  rw [← h.height, hplane]
  exact congrArg Except.ok (Prod.ext (List.append_nil _) rfl)

theorem exhausted (h : s.DecodeProgress t) (hr : t.work.r < t.height) (hbuf : t.work.buf.length < t.width)
    (hbc : t.bytesLen ≤ t.work.bc) : s.DecodeEnds t (t.raiseFormat Err.truncated t.work.r) := by
  have hread : t.work.bc = s.bytesLen := Nat.le_antisymm h.cursor (h.bytesLen ▸ hbc)
  refine .exhausted ?_ hread rfl
  have hrow := h.row
  rw [List.drop_eq_nil_of_le (i := t.work.bc) (by rw [State.stream_length, hread]),
    decFrom_nil_of_short (h.width ▸ hbuf)] at hrow
  rw [h.height] at hr
  rw [h.plane, show s.height - t.work.r = s.height - (t.work.r + 1) + 1 by omega, decRows_succ_of_none hrow]
  rfl

end State.DecodeProgress

/-- `DECODE` begun by a `START` ends, as the row loop of the plane decode does (R133, R135). -/
theorem runToEnd_decode (h : s.Begun) : ∃ t, s.DecodeProgress t ∧ s.DecodeEnds t (runToEnd decodeTick s) := by
  refine runToEnd_reaches .decode (P := s.DecodeProgress) (Q := fun u => ∃ t, s.DecodeProgress t ∧ s.DecodeEnds t u)
    (fun t hb ht => ?_) h.busy h.decodeProgress
  rcases decodeTick_cases t with ⟨hr, _, e⟩ | ⟨hr, hbuf, _, e⟩ | ⟨hr, hbuf, hbc, _, e⟩ | ⟨hr, hbuf, hbc, _, e⟩ <;>
    rw [opTick, e]
  · exact .inr ⟨finishDecode_busy t, t, ht, ht.planeEnd hr⟩
  · exact .inl ⟨hb, ht.rowEnd hr hbuf⟩
  · exact .inr ⟨State.raiseFormat_busy .., t, ht, ht.exhausted hr hbuf hbc⟩
  · rw [blockState_eq]
    exact .inl ⟨hb, ht.block hr hbuf hbc⟩

/-! ### The run's end as the plane decode's -/

/-- The end check of the plane decode is the operation's (R134). -/
theorem State.DecodeProgress.endCheck_iff (h : s.DecodeProgress t) :
    (s.strict = true ∧ t.work.bc ≠ s.stream.length) ↔ (t.mode = 1#1 ∧ t.work.bc ≠ t.bytesLen) := by
  rw [s.strict_iff, s.stream_length, h.mode, h.bytesLen]

/-- Where the plane decode succeeds, the run completes with its rows in `MASK`. -/
theorem runToEnd_decode_of_ok {rows : List Row} {used : Nat} (h : s.Begun)
    (hok : decPlane s.stream s.width s.height s.strict = .ok (rows, used)) :
    ∃ t, s.DecodeProgress t ∧ t.work.r = s.height ∧ t.grid = rows ∧ t.work.bc = used
      ∧ runToEnd decodeTick s = State.finish { t with maskLen := t.width * t.height, consumed := t.work.bc } := by
  obtain ⟨t, ht, hends⟩ := runToEnd_decode h
  cases hends with
  | planeEnd hrows hall e =>
    by_cases hend : s.strict = true ∧ t.work.bc ≠ s.stream.length
    · exact nomatch (decPlane_of_trailing hrows hend).symm.trans hok
    · obtain ⟨hgrid, hused⟩ := Prod.mk.inj (Except.ok.inj ((decPlane_of_complete hrows hend).symm.trans hok))
      exact ⟨t, ht, hall, hgrid, hused, e.trans (finishDecode_of_complete (ht.endCheck_iff.not.mp hend))⟩
  | exhausted hrows _ _ => exact nomatch (decPlane_of_truncated hrows).symm.trans hok

/-- Where the plane decode leaves bytes over, the run is in strict mode, some are left, and it raises. -/
theorem runToEnd_decode_of_trailing {used : Nat} (h : s.Begun)
    (herr : decPlane s.stream s.width s.height s.strict = .error (.trailing used)) :
    s.mode = 1#1 ∧ used < s.bytesLen
      ∧ ∃ t, s.DecodeProgress t ∧ t.work.bc = used ∧ runToEnd decodeTick s = t.raiseFormat Err.trailing t.height := by
  obtain ⟨t, ht, hends⟩ := runToEnd_decode h
  cases hends with
  | planeEnd hrows _ e =>
    by_cases hend : s.strict = true ∧ t.work.bc ≠ s.stream.length
    · obtain rfl := DecFail.trailing.inj (Except.error.inj ((decPlane_of_trailing hrows hend).symm.trans herr))
      have hleft := ht.endCheck_iff.mp hend
      exact ⟨ht.mode ▸ hleft.1, Nat.lt_of_le_of_ne ht.cursor (ht.bytesLen ▸ hleft.2), t, ht, rfl,
        e.trans (finishDecode_of_trailing hleft)⟩
    · exact nomatch (decPlane_of_complete hrows hend).symm.trans herr
  | exhausted hrows _ _ => exact nomatch (decPlane_of_truncated hrows).symm.trans herr

end

/-- Settles O38: the run that completes, and its frame. -/
theorem decodeRebuildsGrid : Obligations.DecodeRebuildsGrid := by
  intro s rows used hs hok
  obtain ⟨t, ht, hall, rfl, rfl, e⟩ := runToEnd_decode_of_ok hs hok
  refine ⟨_, congrArg Host.Outcome.next e, fun r c hr hc => ?_, fun a ha => ?_, ?_⟩
  · rw [t.grid_cell (ht.height ▸ hr) (ht.width ▸ hc), ht.width]
    rfl
  · exact ht.kept a (by rwa [hall, Nat.mul_comm])
  · show { s.withDecodeRun t with maskLen := t.width * t.height, consumed := t.work.bc, status := Status.done } = _
    rw [ht.frame, ht.width, ht.height]
    rfl

/-- Settles O40: the run that raises, and its frame. -/
theorem trailingBytesRaise : Obligations.TrailingBytesRaise := by
  intro s used hs herr
  obtain ⟨hmode, hlt, t, ht, rfl, e⟩ := runToEnd_decode_of_trailing hs herr
  refine ⟨hmode, hlt, _, congrArg Host.Outcome.next e, fun _ => rfl, ?_⟩
  have hfresh : t.fresh = s.fresh := (congrArg State.fresh ht.frame :)
  show { s.withDecodeRun t with
    maskLen := 0, consumed := t.work.bc, errcode := Err.trailing, errrow := t.height, status := Status.failed,
    fresh := s.fresh } = _
  rw [ht.frame, ht.height]
  rfl

end Sys2Proof.Machine
end

section
/-! SUPPORT. Proofs about `ENCODE` followed by `DECODE` (R137): the stream the one leaves is the encoded grid, and the other
reads it back. -/

namespace Sys2Proof.Machine

/-- The stream `ENCODE` leaves is the encoded grid. -/
theorem State.EncodeDone.stream {s t : State} (h : s.EncodeDone t) : t.stream = encPlane s.grid := by
  refine List.ext_getElem (by rw [State.stream_length, h.bytesLen]) fun a ha ha' => ?_
  rw [← List.getD_eq_getElem _ 0#8 ha']
  simp only [State.stream, List.getElem_map, List.getElem_range]
  rw [h.bytes, if_pos ha']

/-- With the same width and height the stream decodes to the grid, in either mode, and no byte remains (R137). -/
theorem State.EncodeDone.decPlane_eq {s t : State} (h : s.EncodeDone t) (strict : Bool) :
    decPlane t.stream t.width t.height strict = .ok (s.grid, t.bytesLen) := by
  rw [h.stream, State.width_of_withBytesOutputs h.frame, State.height_of_withBytesOutputs h.frame, h.bytesLen,
    ← s.grid_length]
  exact planeRoundTrip s.grid s.width strict fun _ => State.row_length_of_mem_grid

/-- `t` with `DECODE` selected, in this mode, and begun: the fields `START` sets (R151). -/
def State.beginDecode (t : State) (m : BitVec 1) : State :=
  { t with op := 4#3, mode := m, status := Status.running, work := Work.reset }

theorem State.beginDecode_begun (t : State) (m : BitVec 1) : (t.beginDecode m).Begun := ⟨rfl, rfl⟩

/-- Settles O44: `DECODE` (O38) of the stream that `ENCODE` leaves. -/
theorem encodeThenDecodeReproducesMask : Obligations.EncodeThenDecodeReproducesMask := by
  intro s m hs
  have hdone := runToEnd_encode hs
  have hwidth := State.width_of_withBytesOutputs hdone.frame
  have hheight := State.height_of_withBytesOutputs hdone.frame
  obtain ⟨u, hu, hcells, -, hframe⟩ := decodeRebuildsGrid ((runToEnd encodeTick s).beginDecode m) s.grid _
    (State.beginDecode_begun _ m) (hdone.decPlane_eq _)
  change ∀ r c, r < (runToEnd encodeTick s).height → c < (runToEnd encodeTick s).width →
    u.maskAt (r * (runToEnd encodeTick s).width + c) = _ at hcells
  rw [hwidth, hheight] at hcells
  refine ⟨_, u, rfl, hu, fun a ha => ?_, ?_, (congrArg State.consumed hframe :), (congrArg State.status hframe :)⟩
  · obtain ⟨r, c, hr, hc, rfl⟩ := exists_cell ha
    exact (hcells r c hr hc).trans (s.grid_cell hr hc)
  · rw [← hwidth, ← hheight]
    exact (congrArg State.maskLen hframe :)

end Sys2Proof.Machine
end

section
/-! SUPPORT. Proofs about `PACK` (R143, R144): which position of a row is which bit of its packed bytes, and that the run
packs every row. -/

namespace Sys2Proof.Machine

/-! ### The packed row -/

theorem packedLen_eq (W : Nat) : packedLen W = (W + 7) / 8 := rfl

theorem packRow_getD (R : Row) {j : Nat} (hj : j < packedLen R.length) : (packRow R).getD j 0#8 = packByte R j := by
  rw [List.getD_eq_getElem _ _ (by rwa [packRow_length])]
  simp only [packRow, List.getElem_map, List.getElem_range]

/-- Settles O24: byte `j` of the row is its packed byte, whose bits are the row's; the examples by evaluation. -/
theorem packedRowBits : Obligations.PackedRowBits := by
  refine ⟨fun R => ⟨packRow_length R, fun j i hj hi => ?_⟩, by decide, by decide, by decide⟩
  rw [packRow_getD R hj, packByte_getLsbD R j i hi]

/-! ### The packed plane, by index -/

/-- Byte `a` of the packed plane: the rows' bytes one after another, `ceil(W / 8)` of each (R144). -/
def State.packedByteAt (s : State) (a : Nat) : Byte :=
  packByte (s.row (a / packedLen s.width)) (a % packedLen s.width)

/-- Byte `j` of row `r`. -/
theorem State.packedByteAt_rowIndex (s : State) (r : Nat) {j : Nat} (hj : j < packedLen s.width) :
    s.packedByteAt (r * packedLen s.width + j) = packByte (s.row r) j := by
  have hdiv : (r * packedLen s.width + j) / packedLen s.width = r := by
    rw [Nat.add_comm, Nat.add_mul_div_right _ _ (Nat.zero_lt_of_lt hj), Nat.div_eq_of_lt hj, Nat.zero_add]
  rw [State.packedByteAt, hdiv, Nat.mul_add_mod_of_lt hj]

theorem State.row_getD (s : State) (r : Nat) {c : Nat} (hc : c < s.width) :
    (s.row r).getD c false = s.maskAt (r * s.width + c) := by
  simp [State.row, State.index, hc]

/-- Its bits: position `8j + i` of row `r` in bit `7 - i`, 0 past the row (R143). -/
theorem State.packByte_row_getLsbD (s : State) (r j : Nat) {i : Nat} (hi : i < 8) :
    (packByte (s.row r) j).getLsbD (7 - i) =
      if 8 * j + i < s.width then s.maskAt (r * s.width + (8 * j + i)) else false := by
  rw [packByte_getLsbD _ j i hi, State.row_length]
  split
  case isTrue hpos => exact s.row_getD r hpos
  case isFalse => rfl

/-! ### The run of `PACK` -/

/-- `PACK`, begun at `s`, stands at `t`: its pointer is at row `r`, byte `j`; it has emitted the bytes of the packed plane
before the pointer, and no other byte of `BYTES` has changed (R144). -/
structure State.PackProgress (s t : State) : Prop where
  frame   : s.withBytesOutputs t = s
  column  : t.work.j ≤ packedLen s.width
  pointer : t.work.wp = t.work.r * packedLen s.width + t.work.j
  inPlane : t.work.wp ≤ s.height * packedLen s.width
  bytes   : ∀ a, t.byteAt a = if a < t.work.wp then s.packedByteAt a else s.byteAt a

/-- `t` is where `PACK`, begun at `s`, ends (R144). -/
structure State.PackDone (s t : State) : Prop where
  frame    : s.withBytesOutputs t = s
  bytes    : ∀ a, t.byteAt a = if a < s.height * packedLen s.width then s.packedByteAt a else s.byteAt a
  bytesLen : t.bytesLen = s.height * packedLen s.width
  status   : t.status = Status.done

section
variable {s t : State}

theorem State.Begun.packProgress (h : s.Begun) : s.PackProgress s := by
  refine ⟨rfl, ?_, ?_, ?_, fun a => ?_⟩ <;> rw [h.work]
  · exact Nat.zero_le _
  · simp [Work.reset]
  · exact Nat.zero_le _
  · exact (if_neg (Nat.not_lt_zero a)).symm

/-- Emitting element `wp` of the sequence `f`, whose elements before `wp` stand in `BYTES`, makes it one longer (R20). -/
theorem State.byteAt_emit_next {f : Nat → Byte} {b : Byte}
    (h : ∀ a, t.byteAt a = if a < t.work.wp then f a else s.byteAt a) (hb : b = f t.work.wp) (w : Work) (a : Nat) :
    (t.emit b w).byteAt a = if a < t.work.wp + 1 then f a else s.byteAt a := by
  rw [State.byteAt_emit, h a, hb]
  by_cases ha : a = t.work.wp
  · simp [ha]
  · have hnext : a < t.work.wp + 1 ↔ a < t.work.wp := by omega
    simp only [if_neg ha, hnext]

/-- At a row's end the pointer stands at the next row's first byte. -/
theorem State.PackProgress.rowEnd (h : s.PackProgress t) (hj : packedLen t.width ≤ t.work.j) {w : Work}
    (hr' : w.r = t.work.r + 1) (hj' : w.j = 0) (hwp : w.wp = t.work.wp) : s.PackProgress (t.withWork w) := by
  have hcol : t.work.j = packedLen s.width :=
    Nat.le_antisymm h.column (State.width_of_withBytesOutputs h.frame ▸ hj)
  have hpointer : w.wp = w.r * packedLen s.width + w.j := by
    rw [hwp, h.pointer, hcol, hr', hj', Nat.succ_mul, Nat.add_zero]
  refine ⟨h.frame, ?_, hpointer, hwp ▸ h.inPlane, hwp ▸ h.bytes⟩
  rw [State.withWork_work, hj']
  exact Nat.zero_le _

/-- Byte `j` of row `r` is emitted: it is the next one of the packed plane. -/
theorem State.PackProgress.byte (h : s.PackProgress t) (hr : t.work.r < t.height)
    (hj : t.work.j < packedLen t.width) {w : Work} (hr' : w.r = t.work.r) (hj' : w.j = t.work.j + 1) :
    s.PackProgress (t.emit (packByte (t.row t.work.r) t.work.j) w) := by
  rw [State.width_of_withBytesOutputs h.frame] at hj
  rw [State.height_of_withBytesOutputs h.frame] at hr
  have hbyte : packByte (t.row t.work.r) t.work.j = s.packedByteAt t.work.wp := by
    rw [State.row_of_withBytesOutputs h.frame, h.pointer, s.packedByteAt_rowIndex _ hj]
  have hlt : t.work.wp < s.height * packedLen s.width := h.pointer ▸ rowIndex_lt hr hj
  have hpointer : t.work.wp + 1 = w.r * packedLen s.width + w.j := by rw [h.pointer, hr', hj', Nat.add_assoc]
  exact ⟨h.frame, (hj' ▸ hj : w.j ≤ _), hpointer, hlt, State.byteAt_emit_next h.bytes hbyte w⟩

theorem State.PackProgress.finish (h : s.PackProgress t) (hr : t.height ≤ t.work.r) :
    s.PackDone (finishBytes t) := by
  have hrows : s.height * packedLen s.width ≤ t.work.r * packedLen s.width :=
    Nat.mul_le_mul_right _ (State.height_of_withBytesOutputs h.frame ▸ hr)
  have hall : t.work.wp = s.height * packedLen s.width :=
    Nat.le_antisymm h.inPlane (h.pointer ▸ Nat.le_add_right_of_le hrows)
  exact ⟨h.frame, hall ▸ h.bytes, hall, rfl⟩

/-- `PACK` begun by a `START` completes, with every row packed (R144). -/
theorem runToEnd_pack (h : s.Begun) : s.PackDone (runToEnd packTick s) := by
  refine runToEnd_reaches .pack (P := s.PackProgress) (fun t hb ht => ?_) h.busy h.packProgress
  rcases packTick_cases t with ⟨hr, e⟩ | ⟨_, hj, e⟩ | ⟨hr, hj, e⟩ <;> rw [opTick, e]
  · exact .inr ⟨finishBytes_busy t, ht.finish hr⟩
  · exact .inl ⟨hb, ht.rowEnd hj rfl rfl rfl⟩
  · exact .inl ⟨hb, ht.byte hr hj rfl rfl⟩

end

/-- Settles O25: the run's end and its frame. -/
theorem packWritesPackedPlane : Obligations.PackWritesPackedPlane := by
  intro s hs
  simp only [← packedLen_eq]
  have hdone := runToEnd_pack hs
  refine ⟨_, rfl, fun r j i hr hj hi => ?_, fun a ha => ?_, ?_⟩
  · rw [hdone.bytes, if_pos (rowIndex_lt hr hj), s.packedByteAt_rowIndex r hj, s.packByte_row_getLsbD r j hi]
  · rw [hdone.bytes, if_neg ha.not_gt]
  · calc { runToEnd packTick s with work := s.work, bytes := s.bytes }
        = { s.withBytesOutputs (runToEnd packTick s) with
            bytesLen := (runToEnd packTick s).bytesLen, status := (runToEnd packTick s).status } := rfl
      _ = { s with bytesLen := s.height * packedLen s.width, status := Status.done } := by
        rw [hdone.frame, hdone.bytesLen, hdone.status]

end Sys2Proof.Machine
end

section
/-! SUPPORT. Proofs about how an operation and the commands end (R151, R153, R154, R158, R168), the core's turn under a
`yield` (R159), and the host's writes while an operation runs (R155, R156). -/

namespace Sys2Proof.Machine

/-! ### The two ways an operation ends -/

/-- `t` is where the operation `o` has ended (R153, R168): done, or, for `DECODE` alone, failed with a format error. -/
def State.EndedBy (t : State) (o : Operation) : Prop :=
  t.status = Status.done
  ∨ (o = .decode ∧ t.status = Status.failed ∧ (t.errcode = Err.truncated ∨ t.errcode = Err.trailing))

/-- The end check completes `DECODE` or raises `FORMAT_TRAILING` (R134). -/
theorem finishDecode_endedBy (s : State) : (finishDecode s).EndedBy .decode := by
  by_cases h : s.mode = 1#1 ∧ s.work.bc ≠ s.bytesLen
  · rw [finishDecode_of_trailing h]
    exact .inr ⟨rfl, rfl, .inr rfl⟩
  · rw [finishDecode_of_complete h]
    exact .inl rfl

/-- Of an operation's steps the one that leaves the core idle is its completion or a format error's raise: every other
step keeps `STATUS`. -/
theorem opTick_endedBy {o : Operation} {s : State} (hb : s.busy = true) (hend : (opTick o s).busy = false) :
    (opTick o s).EndedBy o := by
  have goesOn : (opTick o s).busy = s.busy → (opTick o s).EndedBy o :=
    fun e => (State.busy_idle_absurd (e.trans hb) hend).elim
  cases o with
  | extract =>
    rcases extractTick_cases s with ⟨_, e⟩ | ⟨_, _, e⟩ | ⟨_, _, e⟩ <;> rw [opTick, e] at goesOn ⊢
    · exact .inl rfl
    · exact goesOn rfl
    · exact goesOn rfl
  | pack =>
    rcases packTick_cases s with ⟨_, e⟩ | ⟨_, _, e⟩ | ⟨_, _, e⟩ <;> rw [opTick, e] at goesOn ⊢
    · exact .inl rfl
    · exact goesOn rfl
    · exact goesOn rfl
  | encode =>
    rcases encodeTick_cases s with ⟨_, e⟩ | ⟨_, _, e⟩ | ⟨_, _, _, e⟩ | ⟨_, _, _, e⟩ <;>
      rw [opTick, e] at goesOn ⊢
    · exact .inl rfl
    · exact goesOn rfl
    · exact goesOn rfl
    · exact goesOn rfl
  | decode =>
    rcases decodeTick_cases s with ⟨_, _, e⟩ | ⟨_, _, _, e⟩ | ⟨_, _, _, _, e⟩ | ⟨_, _, _, _, e⟩ <;>
      rw [opTick, e] at goesOn ⊢
    · exact finishDecode_endedBy s
    · exact goesOn rfl
    · exact .inr ⟨rfl, rfl, .inl rfl⟩
    · rw [blockState_eq] at goesOn ⊢
      exact goesOn rfl

/-- The run of an operation that is running reaches its end (R153, R158). -/
theorem runToEnd_endedBy (o : Operation) {s : State} (hb : s.busy = true) : (runToEnd (opTick o) s).EndedBy o :=
  runBusy_reaches (P := fun _ => True) (Q := fun t => t.EndedBy o) (fun _ _ _ _ => trivial)
    (fun _ htb _ hend => opTick_endedBy htb hend) _ s hb trivial (runToEnd_busy o s)

/-- Settles O45: the run is bounded, and its last step is one that ends the operation. -/
theorem everyOperationTerminates : Obligations.EveryOperationTerminates :=
  fun s o => ⟨_, exec_operation o s, runToEnd_busy o s, fun hb => runToEnd_endedBy o hb⟩

/-! ### The core's turn under a `yield` -/

/-- The core's turn always answers a next state, the same whatever moves are to come, and leaves them (R159). -/
theorem coreTurn_withAgenda (s : State) :
    ∃ t : State, ∀ ms, coreTurn (s.withAgenda ms) = .next (t.withAgenda ms) := by
  cases hb : s.busy with
  | false => exact ⟨s, fun _ => coreTurn_nothing (.inl hb)⟩
  | true =>
    cases ho : s.operation with
    | none => exact ⟨s, fun _ => coreTurn_nothing (.inr ho)⟩
    | some o =>
      exact ⟨opTick o s, fun ms =>
        (coreTurn_operation (s := s.withAgenda ms) hb ho).trans (congrArg _ (opTick_withAgenda o s ms))⟩

/-- Settles O5: both steps are the core's turn, which does not look at the moves to come. -/
theorem yieldTakesOneCoreStep : Obligations.YieldTakesOneCoreStep := by
  intro s ms ha
  obtain ⟨t, ht⟩ := coreTurn_withAgenda s
  exact ⟨t.withAgenda [], (step_of_no_move rfl).trans (ht []), (step_of_move ha).trans (ht ms)⟩

/-! ### The commands -/

/-- Settles O18, by the two things `CLEAR` can do. -/
theorem clearResetsOutcomeOnly : Obligations.ClearResetsOutcomeOnly := by
  intro s
  refine congrArg Host.Outcome.next ?_
  rcases clearState_cases s with ⟨hb, e⟩ | ⟨hb, e⟩
  · rw [e, if_pos hb]
  · rw [e, hb, if_neg Bool.false_ne_true]
    rfl

theorem startState_of_busy {s : State} (hb : s.busy = true) : startState s = s := if_pos hb

/-- Settles O19: the command finds the core busy. -/
theorem startIgnoredWhileBusy : Obligations.StartIgnoredWhileBusy :=
  fun _ hb => congrArg Host.Outcome.next (startState_of_busy hb)

/-! ### The host's writes while an operation runs -/

/-- Settles O51: the step is the register write, ignored on the state whose move is taken off. -/
theorem busyWritesAreIgnored : Obligations.BusyWritesAreIgnored :=
  fun s ms k v ha hb => (step_of_move ha).trans (hostWriteRegister_of_busy (s := { s with agenda := ms }) hb k v)

theorem State.hostWrite_of_busy {s : State} (hb : s.busy = true) (b : BufName) (i : Nat) (t : State) :
    s.hostWrite b i t = .refused (.bufferWriteWhileBusy b) := if_pos hb

/-- Settles O55: each of the three writes finds the core busy, whatever the element. -/
theorem busyBufferWriteIsRefused : Obligations.BusyBufferWriteIsRefused := by
  intro s ms i hb
  have hwrite : ∀ b t, State.hostWrite { s with agenda := ms } b i t = .refused (.bufferWriteWhileBusy b) :=
    fun b t => State.hostWrite_of_busy (s := { s with agenda := ms }) hb b i t
  exact ⟨fun _ ha => (step_of_move ha).trans (hwrite .pix _), fun _ ha => (step_of_move ha).trans (hwrite .mask _),
    fun _ ha => (step_of_move ha).trans (hwrite .bytes _)⟩

end Sys2Proof.Machine
end

section
/-! SUPPORT. Proofs about the exceptions of a truncated stream and of a failing contract check (R165, R167, R169 to R172),
and about the idle core, which holds its state (R185). -/

namespace Sys2Proof.Machine

/-! ### The exception of a truncated stream -/

section
variable {s t : State}

/-- A format exception raised in a run of `DECODE` changes the outcome, `MASK` and `MASK_LEN` alone (R169, R170, R172). -/
theorem State.DecodeProgress.raiseFormat_frame (h : s.DecodeProgress t) (code : BitVec 2) (row : Nat) :
    { t.raiseFormat code row with work := s.work, mask := s.mask, fresh := s.fresh } =
      { s with maskLen := 0, consumed := t.work.bc, errcode := code, errrow := row, status := Status.failed } := by
  calc { t.raiseFormat code row with work := s.work, mask := s.mask, fresh := s.fresh }
      = { s.withDecodeRun t with
          maskLen := 0, consumed := t.work.bc, errcode := code, errrow := row, status := Status.failed,
          fresh := s.fresh } := rfl
    _ = _ := by rw [h.frame]

/-- Where the plane decode runs out of bytes in row `r`, so does the run, at the end of the stream (R165). -/
theorem runToEnd_decode_of_truncated {r : Nat} (h : s.Begun)
    (herr : decPlane s.stream s.width s.height s.strict = .error (.truncated r)) :
    ∃ t, s.DecodeProgress t ∧ t.work.bc = s.bytesLen ∧ runToEnd decodeTick s = t.raiseFormat Err.truncated r := by
  obtain ⟨t, ht, hends⟩ := runToEnd_decode h
  cases hends with
  | planeEnd hrows _ _ =>
    by_cases hend : s.strict = true ∧ t.work.bc ≠ s.stream.length
    · exact nomatch (decPlane_of_trailing hrows hend).symm.trans herr
    · exact nomatch (decPlane_of_complete hrows hend).symm.trans herr
  | exhausted hrows hread e =>
    obtain rfl := DecFail.truncated.inj (Except.error.inj ((decPlane_of_truncated hrows).symm.trans herr))
    exact ⟨t, ht, hread, e⟩

end

/-- Settles O39: the run that raises, and its frame. -/
theorem truncatedStreamRaises : Obligations.TruncatedStreamRaises := by
  intro s r hs herr
  obtain ⟨t, ht, hread, e⟩ := runToEnd_decode_of_truncated hs herr
  exact ⟨_, congrArg Host.Outcome.next e, fun _ => rfl, hread ▸ ht.raiseFormat_frame Err.truncated r⟩

/-! ### The contract exception -/

/-- Settles O17: of the three things `START` can do, an idle core and a failing check leave the raise. -/
theorem startRaisesContract : Obligations.StartRaisesContract := by
  intro s hidle hfail
  refine ⟨_, rfl, ?_⟩
  rcases startState_cases s with ⟨hb, _⟩ | ⟨_, hok, _⟩ | ⟨_, _, e⟩
  · exact (State.busy_idle_absurd hb hidle).elim
  · exact absurd hok hfail
  · rw [e]
    rfl

/-! ### The idle core -/

/-- Where nothing runs, waiting for the core changes nothing (R37, R185). -/
theorem coreToEnd_of_idle {s : State} (hidle : s.busy = false) : coreToEnd s = .next s := by
  rcases coreToEnd_cases s with e | ⟨_, hb, _, _⟩
  · exact e
  · exact (State.busy_idle_absurd hb hidle).elim

/-- Settles O8: the core's turn and the wait for its end, neither of which an idle core uses. -/
theorem idleCoreHoldsState : Obligations.IdleCoreHoldsState := by
  intro s hidle
  refine ⟨fun ha => (step_of_no_move ha).trans (coreTurn_nothing (.inl hidle)), fun ms ha => ?_⟩
  rcases ha with ha | ha
  · exact (step_of_move ha).trans (coreTurn_nothing (s := { s with agenda := ms }) (.inl hidle))
  · exact (step_of_move ha).trans (coreToEnd_of_idle (s := { s with agenda := ms }) hidle)

end Sys2Proof.Machine
end

section
/-! SUPPORT. The proof about the reset input, which abandons a running operation with no record (R187 to R189). -/

namespace Sys2Proof.Machine

/-- No element of any buffer is known after a reset (R188). -/
theorem State.resetCore_forgets (s : State) (i : Nat) :
    s.resetCore.pix.read i = none ∧ s.resetCore.mask.read i = none ∧ s.resetCore.bytes.read i = none :=
  ⟨Memory.read_forget s.pix s.fresh i, Memory.read_forget s.mask s.fresh i, Memory.read_forget s.bytes s.fresh i⟩

/-- Settles O3: the step is `resetCore` on the state with the reset taken off its agenda, whose registers are those of
`State.reset` whatever was running. -/
theorem resetInputAbandonsOperation : Obligations.ResetInputAbandonsOperation := by
  intro s ms ha
  have hstep : step s = .next (State.resetCore { s with agenda := ms }) := step_of_move ha
  exact ⟨_, hstep, rfl, rfl, rfl, rfl, rfl, rfl, rfl, rfl, rfl, rfl, rfl, rfl,
    State.resetCore_forgets { s with agenda := ms }, rfl, rfl, rfl⟩

end Sys2Proof.Machine
end
